-- ==== Sys2Proof/Word.lean ====
section
/-! DEFINITION. The two word types (R7) and the wrapping arithmetic of R8 and R142. -/

namespace Sys2Proof

/-- An 8-bit value: `A`, `X`, `Y`, `P`, a memory cell, an opcode or operand byte (R7, R10). -/
abbrev Byte := BitVec 8

/-- A 16-bit value: `PC`, an effective address, an assembled absolute operand (R7, R10, R52). -/
abbrev Word := BitVec 16

/-- R8 `add8(a, b)`: the sum modulo 256. -/
def add8 (a b : Byte) : Byte := a + b

/-- R8 `add16(a, b)`: the sum modulo 65,536. -/
def add16 (a b : Word) : Word := a + b

/-- R8 `zext_16(v)`: the byte with a zero upper byte. -/
def zext16 (v : Byte) : Word := v.setWidth 16

end Sys2Proof
end

