-- ==== Sys2Proof/Syntax.lean ====
section
/-! DEFINITION. The addressing modes, the opcode descriptor, the result of a table lookup, the assembled operand and
the instructions: one constructor of `Instr` per row of spec/opcode_table.json. -/

namespace Sys2Proof

/-- The ten addressing modes of R70, a closed type. -/
inductive Mode where
  | immediate
  | zeroPage
  | zeroPageX
  | zeroPageY
  | absolute
  | absoluteX
  | absoluteY
  | indirectX
  | indirectY
  | noneAddressing
  deriving DecidableEq, Repr

/-- The descriptor's mnemonic (R53, R59): the five the dispatcher has a handler for (R94), and any other name, which
only a registered, unimplemented row can carry (R56). -/
inductive Mnemonic where
  | lda
  | sta
  | tax
  | inx
  | brk
  | other (name : String)
  deriving DecidableEq, Repr

/-- The opcode descriptor of R53. `cycles` and `pageCross` (added on a page crossing) are the cycle cost of R194:
data that nothing reads. PRESUMED values, log entry 16. -/
structure Descriptor where
  code      : Byte
  mnemonic  : Mnemonic
  mode      : Mode
  length    : Nat
  cycles    : Nat
  pageCross : Nat
  deriving DecidableEq, Repr

/-- The three results of R58's `Decode`. -/
inductive Lookup where
  | implemented (d : Descriptor)
  | unimplemented (d : Descriptor)
  | unrecognised
  deriving DecidableEq, Repr

/-- The descriptor a lookup found, if the byte is registered (R92 line 3). -/
def Lookup.descriptor? : Lookup → Option Descriptor
  | .implemented d => some d
  | .unimplemented d => some d
  | .unrecognised => none

/-- An addressing mode together with its assembled operand (R52): the byte `op8`, or the word `hi8 ++ lo8`. -/
inductive Operand where
  | immediate (n : Byte)
  | zeroPage (n : Byte)
  | zeroPageX (n : Byte)
  | zeroPageY (n : Byte)
  | absolute (a : Word)
  | absoluteX (a : Word)
  | absoluteY (a : Word)
  | indirectX (n : Byte)
  | indirectY (n : Byte)
  | noneAddressing
  deriving DecidableEq, Repr

/-- The mode of an operand. -/
def Operand.mode : Operand → Mode
  | .immediate _ => .immediate
  | .zeroPage _ => .zeroPage
  | .zeroPageX _ => .zeroPageX
  | .zeroPageY _ => .zeroPageY
  | .absolute _ => .absolute
  | .absoluteX _ => .absoluteX
  | .absoluteY _ => .absoluteY
  | .indirectX _ => .indirectX
  | .indirectY _ => .indirectY
  | .noneAddressing => .noneAddressing

/-- The instructions: the eighteen rows of R54, each with the operand R52 assembles for its mode. Every byte value is
a legal operand (R58), so an operand's type is its whole well-formedness. -/
inductive Instr where
  | brk                    -- 00        BRK          R150
  | ldaImm (n : Byte)      -- A9 nn     LDA #$nn     R111
  | ldaZp (n : Byte)       -- A5 nn     LDA $nn      R112
  | ldaZpX (n : Byte)      -- B5 nn     LDA $nn,X    R113
  | ldaAbs (a : Word)      -- AD ll hh  LDA $hhll    R114
  | ldaAbsX (a : Word)     -- BD ll hh  LDA $hhll,X  R115
  | ldaAbsY (a : Word)     -- B9 ll hh  LDA $hhll,Y  R116
  | ldaIndX (n : Byte)     -- A1 nn     LDA ($nn,X)  R117
  | ldaIndY (n : Byte)     -- B1 nn     LDA ($nn),Y  R118
  | staZp (n : Byte)       -- 85 nn     STA $nn      R121
  | staZpX (n : Byte)      -- 95 nn     STA $nn,X    R122
  | staAbs (a : Word)      -- 8D ll hh  STA $hhll    R123
  | staAbsX (a : Word)     -- 9D ll hh  STA $hhll,X  R124
  | staAbsY (a : Word)     -- 99 ll hh  STA $hhll,Y  R125
  | staIndX (n : Byte)     -- 81 nn     STA ($nn,X)  R126
  | staIndY (n : Byte)     -- 91 nn     STA ($nn),Y  R127
  | tax                    -- AA        TAX          R140
  | inx                    -- E8        INX          R141
  deriving DecidableEq, Repr

end Sys2Proof
end

