-- ==== Sys2Proof/Config.lean ====
section
/-! DEFINITION. The implementation parameters of R5, each a named constant, so that a claim can name it. `OPTABLE`
is `Sys2Proof.opTable` (Decode.lean). -/

namespace Sys2Proof

/-- R5 `REG_WIDTH`: the width in bits of A, X, Y and P, the width of `Byte`. -/
def Config.regWidth : Nat := 8

/-- R5 `PC_WIDTH`: the width in bits of PC and of an effective address, the width of `Word`. -/
def Config.pcWidth : Nat := 16

/-- R5 `MEM_SIZE`: the number of cells; valid addresses are 0x0000 to `memSize - 1` = 0xFFFE. DESIGN CHOICE of the
spec (D3), log entry 1. -/
def Config.memSize : Nat := 65535

/-- R5 `PROGRAM_ORIGIN`: where `load_and_run` places the first program byte. -/
def Config.programOrigin : Word := 0x8000

/-- R5 `RESET_VECTOR`: the address of the low byte of the reset vector. -/
def Config.resetVector : Word := 0xFFFC

/-- R5, R56 `EXTRA_OPCODES`: the registered opcodes that have no handler; empty for this hardware. DESIGN CHOICE of
the spec (D9), log entry 5. -/
def Config.extraOpcodes : List Descriptor := []

/-- R5 `RAND_CELL`, OPEN: the cell the front end writes a pseudo-random byte into (R190). Log entry 14. -/
opaque Config.randCell : Word

/-- R5 `KEY_CELL`, OPEN: the cell the front end writes a key code into (R190). Log entry 14. -/
opaque Config.keyCell : Word

/-- R5 `FRAME_BASE`, OPEN: the first of the 1,024 cells the front end reads (R190). Log entry 14. -/
opaque Config.frameBase : Word

/-- R190: the window is 32 by 32 pixels, one cell each. -/
def Config.frameCells : Nat := 1024

end Sys2Proof
end

