-- ==== Sys2Proof/WellFormed.lean ====
section
/-! DEFINITION. What makes a descriptor and an opcode table well formed (R53, R56, R61). An `Instr` needs no check of
its own: any byte values are legal operands (R58), and their widths (R52) are the operands' types. -/

namespace Sys2Proof

/-- The number of operand bytes a mode reads (R51, R61). -/
def Mode.operandBytes : Mode → Nat
  | .noneAddressing => 0
  | .immediate => 1
  | .zeroPage => 1
  | .zeroPageX => 1
  | .zeroPageY => 1
  | .indirectX => 1
  | .indirectY => 1
  | .absolute => 2
  | .absoluteX => 2
  | .absoluteY => 2

/-- R61: the length is one plus the number of operand bytes of the mode. -/
def Descriptor.wf (d : Descriptor) : Bool := d.length == 1 + d.mode.operandBytes

/-- R53: "keys are unique by construction". -/
def keysUnique (t : List Descriptor) : Bool := decide (t.map (·.code)).Nodup

/-- A table every row of which satisfies R61 and whose keys are unique (R53). -/
def tableWf (t : List Descriptor) : Bool := t.all Descriptor.wf && keysUnique t

/-- A value of `EXTRA_OPCODES` that R56 admits over the implemented table `impl`: well formed, its keys disjoint from
the implemented ones, and no row named BRK (with one, R92's break test would halt where R56 says that every byte
outside R54 ends in a fault; log entry 21). -/
def extraWf (impl extra : List Descriptor) : Bool :=
  tableWf extra
    && extra.all (fun d => impl.all (fun e => d.code != e.code))
    && extra.all (fun d => d.mnemonic != .brk)

end Sys2Proof
end

