-- ==== Sys2Proof/Decode.lean ====
section
/-! DEFINITION. The opcode table (R54), the table lookup (R58), the decoder (total on every list of bytes, rejecting
by name), then the encoder and the assembler text, written from R59. -/

namespace Sys2Proof

/-! ## Byte order (R7, R36) -/

/-- R7 `hi ++ lo`: the 16-bit value with `hi` in the more significant byte. -/
def wordOf (hi lo : Byte) : Word := hi ++ lo

/-- `v[7:0]`. -/
def lowByte (v : Word) : Byte := v.extractLsb' 0 8

/-- `v[15:8]`. -/
def highByte (v : Word) : Byte := v.extractLsb' 8 8

/-! ## The opcode table -/

/-- R54's LDA rows. Every opcode byte but 0xA9 is PRESUMED by the spec (D8), log entry 4. -/
def ldaRows : List Descriptor :=
  [ ⟨0xA9, .lda, .immediate, 2, 2, 0⟩,
    ⟨0xA5, .lda, .zeroPage, 2, 3, 0⟩,
    ⟨0xB5, .lda, .zeroPageX, 2, 4, 0⟩,
    ⟨0xAD, .lda, .absolute, 3, 4, 0⟩,
    ⟨0xBD, .lda, .absoluteX, 3, 4, 1⟩,
    ⟨0xB9, .lda, .absoluteY, 3, 4, 1⟩,
    ⟨0xA1, .lda, .indirectX, 2, 6, 0⟩,
    ⟨0xB1, .lda, .indirectY, 2, 5, 1⟩ ]

/-- R54's STA rows. Every opcode byte is PRESUMED by the spec (D8), log entry 4. -/
def staRows : List Descriptor :=
  [ ⟨0x85, .sta, .zeroPage, 2, 3, 0⟩,
    ⟨0x95, .sta, .zeroPageX, 2, 4, 0⟩,
    ⟨0x8D, .sta, .absolute, 3, 4, 0⟩,
    ⟨0x9D, .sta, .absoluteX, 3, 5, 0⟩,
    ⟨0x99, .sta, .absoluteY, 3, 5, 0⟩,
    ⟨0x81, .sta, .indirectX, 2, 6, 0⟩,
    ⟨0x91, .sta, .indirectY, 2, 6, 0⟩ ]

/-- R54's rows without an operand. BRK is carried as R57 says: `NoneAddressing`, length 1. -/
def plainRows : List Descriptor :=
  [ ⟨0x00, .brk, .noneAddressing, 1, 7, 0⟩,
    ⟨0xAA, .tax, .noneAddressing, 1, 2, 0⟩,
    ⟨0xE8, .inx, .noneAddressing, 1, 2, 0⟩ ]

/-- R5, R54 `OPTABLE`: the eighteen implemented opcodes, matched whole (mask 0xFF). -/
def opTable : List Descriptor := plainRows ++ ldaRows ++ staRows

/-- The `EXTRA_OPCODES` the machine's own step uses (R56). -/
def extraTable : List Descriptor := Config.extraOpcodes

/-- The row of a table for an opcode byte. -/
def findRow (t : List Descriptor) (b : Byte) : Option Descriptor := t.find? (fun d => d.code == b)

/-- R58 `Decode(b)`, for any value `extra` of `EXTRA_OPCODES`. -/
def lookup (extra : List Descriptor) (b : Byte) : Lookup :=
  match findRow opTable b with
  | some d => .implemented d
  | none =>
    match findRow extra b with
    | some d => .unimplemented d
    | none => .unrecognised

/-! ## The decoder -/

/-- Why a list of bytes is no instruction. -/
inductive DecodeError where
  /-- There is no opcode byte. -/
  | noBytes
  /-- The opcode byte is registered nowhere (R55). -/
  | unrecognized (b : Byte)
  /-- The opcode byte is registered and has no handler (R56). -/
  | unimplemented (b : Byte)
  /-- Fewer bytes follow the opcode than its length says (R50). -/
  | truncated (b : Byte)
  /-- The descriptor fits no form of R54 (R163's table/dispatch mismatch; never, with `opTable`). -/
  | malformed (b : Byte)
  deriving DecidableEq, Repr

/-- The instruction a descriptor and its operand bytes, in memory order, stand for (R52, R54). -/
def buildInstr (m : Mnemonic) (mode : Mode) (ops : List Byte) : Option Instr :=
  match m, mode, ops with
  | .brk, .noneAddressing, [] => some .brk
  | .tax, .noneAddressing, [] => some .tax
  | .inx, .noneAddressing, [] => some .inx
  | .lda, .immediate, [n] => some (.ldaImm n)
  | .lda, .zeroPage, [n] => some (.ldaZp n)
  | .lda, .zeroPageX, [n] => some (.ldaZpX n)
  | .lda, .absolute, [lo, hi] => some (.ldaAbs (wordOf hi lo))
  | .lda, .absoluteX, [lo, hi] => some (.ldaAbsX (wordOf hi lo))
  | .lda, .absoluteY, [lo, hi] => some (.ldaAbsY (wordOf hi lo))
  | .lda, .indirectX, [n] => some (.ldaIndX n)
  | .lda, .indirectY, [n] => some (.ldaIndY n)
  | .sta, .zeroPage, [n] => some (.staZp n)
  | .sta, .zeroPageX, [n] => some (.staZpX n)
  | .sta, .absolute, [lo, hi] => some (.staAbs (wordOf hi lo))
  | .sta, .absoluteX, [lo, hi] => some (.staAbsX (wordOf hi lo))
  | .sta, .absoluteY, [lo, hi] => some (.staAbsY (wordOf hi lo))
  | .sta, .indirectX, [n] => some (.staIndX n)
  | .sta, .indirectY, [n] => some (.staIndY n)
  | _, _, _ => none

/-- The decoder, for any `EXTRA_OPCODES`: the instruction at the head of a list of bytes in memory order, and the
bytes after it (R50, R58). -/
def decodeWith (extra : List Descriptor) : List Byte → Except DecodeError (Instr × List Byte)
  | [] => .error .noBytes
  | b :: rest =>
    match lookup extra b with
    | .unrecognised => .error (.unrecognized b)
    | .unimplemented _ => .error (.unimplemented b)
    | .implemented d =>
      if rest.length < d.length - 1 then .error (.truncated b)
      else
        match buildInstr d.mnemonic d.mode (rest.take (d.length - 1)) with
        | some i => .ok (i, rest.drop (d.length - 1))
        | none => .error (.malformed b)

/-- The machine's decoder: `decodeWith` at its own `EXTRA_OPCODES`. -/
def decode (bytes : List Byte) : Except DecodeError (Instr × List Byte) := decodeWith extraTable bytes

/-- The first three bytes of an instruction whose bits are `w`, numbered as spec/opcode_table.json numbers them: byte
`k` holds bits `8k + 7` down to `8k`; bits at and above `nbits` are 0. -/
def tableWordBytes (nbits w : Nat) : List Byte :=
  let v := w % 2 ^ nbits
  [BitVec.ofNat 8 v, BitVec.ofNat 8 (v / 256), BitVec.ofNat 8 (v / 65536)]

/-- The instruction the decoder reads from those bytes. -/
def decodeTableWord (nbits w : Nat) : Option Instr :=
  match decode (tableWordBytes nbits w) with
  | .ok (i, _) => some i
  | .error _ => none

/-! ## The encoder and the forms of the instructions -/

/-- The bytes of an instruction, in memory order: the last column of R59. -/
def encode : Instr → List Byte
  | .brk => [0x00]
  | .ldaImm n => [0xA9, n]
  | .ldaZp n => [0xA5, n]
  | .ldaZpX n => [0xB5, n]
  | .ldaAbs a => [0xAD, lowByte a, highByte a]
  | .ldaAbsX a => [0xBD, lowByte a, highByte a]
  | .ldaAbsY a => [0xB9, lowByte a, highByte a]
  | .ldaIndX n => [0xA1, n]
  | .ldaIndY n => [0xB1, n]
  | .staZp n => [0x85, n]
  | .staZpX n => [0x95, n]
  | .staAbs a => [0x8D, lowByte a, highByte a]
  | .staAbsX a => [0x9D, lowByte a, highByte a]
  | .staAbsY a => [0x99, lowByte a, highByte a]
  | .staIndX n => [0x81, n]
  | .staIndY n => [0x91, n]
  | .tax => [0xAA]
  | .inx => [0xE8]

/-- The instruction's mnemonic (R54). -/
def Instr.mnemonic : Instr → Mnemonic
  | .brk => .brk
  | .ldaImm _ | .ldaZp _ | .ldaZpX _ | .ldaAbs _ | .ldaAbsX _ | .ldaAbsY _ | .ldaIndX _ | .ldaIndY _ => .lda
  | .staZp _ | .staZpX _ | .staAbs _ | .staAbsX _ | .staAbsY _ | .staIndX _ | .staIndY _ => .sta
  | .tax => .tax
  | .inx => .inx

/-- The instruction's addressing mode with its operand (R52, R54). -/
def Instr.operand : Instr → Operand
  | .brk | .tax | .inx => .noneAddressing
  | .ldaImm n => .immediate n
  | .ldaZp n | .staZp n => .zeroPage n
  | .ldaZpX n | .staZpX n => .zeroPageX n
  | .ldaAbs a | .staAbs a => .absolute a
  | .ldaAbsX a | .staAbsX a => .absoluteX a
  | .ldaAbsY a | .staAbsY a => .absoluteY a
  | .ldaIndX n | .staIndX n => .indirectX n
  | .ldaIndY n | .staIndY n => .indirectY n

/-- The length in bytes of an instruction with this operand: R61. -/
def Operand.length (o : Operand) : Nat := 1 + o.mode.operandBytes

/-- The instruction's length in bytes (R54). -/
def Instr.length (i : Instr) : Nat := i.operand.length

/-! ## Assembler text (R59; digits in capitals, log entry 22) -/

/-- A hexadecimal digit. -/
def hexDigit (n : Nat) : Char := if n < 10 then Char.ofNat (48 + n) else Char.ofNat (55 + n)

/-- The two hexadecimal digits of a byte. -/
def hexByte (b : Byte) : String := String.ofList [hexDigit (b.toNat / 16), hexDigit (b.toNat % 16)]

/-- The four hexadecimal digits `hhll` of a word. -/
def hexWord (w : Word) : String := hexByte (highByte w) ++ hexByte (lowByte w)

/-- The mnemonic as R59 spells it. -/
def Mnemonic.text : Mnemonic → String
  | .lda => "LDA"
  | .sta => "STA"
  | .tax => "TAX"
  | .inx => "INX"
  | .brk => "BRK"
  | .other name => name

/-- The operand as R59 writes it after the mnemonic. `ZeroPage_Y` has no row there and follows `ZeroPage_X`. -/
def Operand.text : Operand → String
  | .immediate n => " #$" ++ hexByte n
  | .zeroPage n => " $" ++ hexByte n
  | .zeroPageX n => " $" ++ hexByte n ++ ",X"
  | .zeroPageY n => " $" ++ hexByte n ++ ",Y"
  | .absolute a => " $" ++ hexWord a
  | .absoluteX a => " $" ++ hexWord a ++ ",X"
  | .absoluteY a => " $" ++ hexWord a ++ ",Y"
  | .indirectX n => " ($" ++ hexByte n ++ ",X)"
  | .indirectY n => " ($" ++ hexByte n ++ "),Y"
  | .noneAddressing => ""

/-- The instruction in assembler text. -/
def Instr.text (i : Instr) : String := i.mnemonic.text ++ i.operand.text

end Sys2Proof
end

