-- ==== Sys2Proof/Machine/State.lean ====
section
/-! DEFINITION. The machine's state, the reasons a step can stop, the host's calls, and the states after construction
and after reset. -/

namespace Sys2Proof.Machine

/-- Where the engine stands (R25, R90). -/
inductive RunState where
  /-- Constructed, no `run` call made yet. -/
  | ready
  /-- Inside a `run` call. -/
  | running
  /-- The last `run` call ended by fetching a break opcode. -/
  | halted
  /-- The last `run` call ended in a fatal error. No step answers such a state: a fault has no next state (R169). -/
  | faulted
  deriving DecidableEq, Repr

/-- The host calls of R181 to R186. `new()` (R180) constructs an instance: it is `State.new`, not a call on one. -/
inductive HostCall where
  /-- `reset()`, R181. -/
  | reset
  /-- `run()`, R183. -/
  | run
  /-- `load_and_run(program_bytes)`, R182. -/
  | loadAndRun (bytes : List Byte)
  /-- `mem_write(addr, byte)`, R184. -/
  | memWrite (addr : Word) (v : Byte)
  /-- `mem_write16(addr, value)`, R185. -/
  | memWrite16 (addr : Word) (v : Word)
  /-- `mem_read(addr)`, R186. -/
  | memRead (addr : Word)
  deriving DecidableEq, Repr

/-- The fault kinds of R160, with the information of R165. -/
inductive Fault where
  /-- R161: the fetched byte `b`, at address `pc0`, has no entry in the opcode table. Raised by the fetch. Safe: the
  spec's own fault. -/
  | unrecognizedOpcode (b : Byte) (pc0 : Word)
  /-- R162: the fetched byte `b`, at address `pc0`, is registered and has no handler. Raised by the fetch, after
  address resolution. Safe: the spec's own fault; never with an empty `EXTRA_OPCODES`. -/
  | unimplementedInstruction (b : Byte) (pc0 : Word)
  /-- R163: an address was resolved for a no-operand instruction, or the table and the dispatcher disagree. Raised by
  the resolver and by the fetch; unreachable with `opTable`. Safe: the spec's own fault. -/
  | invalidAddressingMode
  /-- R164: the core accessed an address that names no cell. Raised by every memory access. Safe: the spec's own
  fault (D4). -/
  | memoryOutOfRange (addr : Word)
  deriving DecidableEq, Repr

/-- What the model gives no meaning. -/
inductive Refusal where
  /-- An instruction with no meaning yet: raised by an arm of `exec` only; no arm raises it. Safe. -/
  | notModelled (mnemonic : String)
  /-- R184 to R186: a host call names an address outside the contract. Raised by the host's turn. Safe (D20). -/
  | hostAddressOutOfContract (addr : Word)
  /-- R45: a program image of `n` bytes does not fit. Raised by the host's turn. Safe (D19). -/
  | imageTooLong (n : Nat)
  /-- R25, R90: nothing is defined on a faulted instance. Raised by the step. Safe (D20). -/
  | faultedInstance
  deriving DecidableEq, Repr

/-- Memory as plain data: address and byte, in the canonical form `Memory.wf` (Ops.lean). An address that is not
listed reads as 0x00, the value R28 gives every cell. -/
abbrev Memory := List Host.Cell

/-- The status register `P` (R15): its eight bits, the six flags and the two that have no name (R22), each under a field
of its own. Where they stand in a byte is not part of the state, so that no claim can depend on it (R196): the layout of
R15 is the view `Status.toByte` (Flags.lean). Log entries 3 and 24. -/
structure Status where
  /-- Negative, R16. -/
  n : Bool
  /-- Overflow, R17. -/
  v : Bool
  /-- The upper of the two bits without a name, R22. -/
  spareHigh : Bool
  /-- The lower of the two bits without a name, R22. -/
  spareLow : Bool
  /-- Decimal, R18. -/
  d : Bool
  /-- Interrupt-Disable, R19. -/
  i : Bool
  /-- Zero, R20. -/
  z : Bool
  /-- Carry, R21. -/
  c : Bool
  deriving DecidableEq, Repr

/-- `P` = 0x00: all eight bits clear (R28, R181). -/
def Status.zero : Status := ⟨false, false, false, false, false, false, false, false⟩

/-- The state of one instance (R10), and of the host that drives it (R6; `calls` and `seen`, log entry 6). -/
structure State where
  /-- Accumulator, R11. -/
  a : Byte
  /-- Index register X, R12. -/
  x : Byte
  /-- Index register Y, R13. -/
  y : Byte
  /-- Program counter, R14. -/
  pc : Word
  /-- Status flags, R15. -/
  p : Status
  /-- Memory, R24. -/
  mem : Memory
  /-- Engine control state, R25. -/
  runState : RunState
  /-- The calls the host has still to make, oldest first. The model's own field. -/
  calls : List HostCall
  /-- The bytes `mem_read` has returned to the host, newest first. The model's own field. -/
  seen : List Byte
  deriving DecidableEq, Repr

/-- R180 `new()`: everything zero, `RunState` Ready. -/
def State.new : State where
  a := 0x00
  x := 0x00
  y := 0x00
  pc := 0x0000
  p := Status.zero
  mem := []
  runState := .ready
  calls := []
  seen := []

/-- The machine right after `new()` and then `reset()` (R28, R187): A, X and P zero, PC the reset vector, which reads
0x0000 in zero memory; Y, memory and RunState as `new()` leaves them. Log entries 8 and 9. -/
def State.reset : State where
  a := 0x00
  x := 0x00
  y := 0x00
  pc := 0x0000
  p := Status.zero
  mem := []
  runState := .ready
  calls := []
  seen := []

end Sys2Proof.Machine
end

