-- ==== Sys2Proof/Machine/Ops.lean ====
section
/-! DEFINITION. The named operations on memory and registers, the memory primitives of the core (R31 to R36), and
`raise`, the one operation by which a step ends in a fault. There is no trap entry and no trap return (R167, R168). -/

namespace Sys2Proof.Machine

/-- What a step or a meaning answers. -/
abbrev Result := Host.Outcome State Fault Refusal

/-- R8, R96, R167 `raise`: the step and the run end with the fault; there is no next state (R169). -/
def raise (f : Fault) : Result := .fault f

/-- R30: the addresses that name a cell. -/
def cellExists (a : Nat) : Bool := decide (a < Config.memSize)

/-! ## Memory as a list of cells -/

/-- The canonical form: addresses strictly rising, each naming a cell, and no entry equal to what an unlisted address
reads as. -/
abbrev Memory.wf (m : Memory) : Prop :=
  m.Pairwise (fun c d => c.1 < d.1) ∧ ∀ c ∈ m, c.2 ≠ 0 ∧ cellExists c.1 = true

/-- What an address that is not listed reads as (R28: 0x00 after `new()`). -/
def Memory.unlisted : Byte := 0x00

/-- `M[a]`. -/
def Memory.get : Memory → Nat → Byte
  | [], _ => Memory.unlisted
  | (k, w) :: m, a => if k = a then w else Memory.get m a

/-- Puts a cell in its place by address. -/
def Memory.insert : Memory → Nat → Byte → Memory
  | [], a, v => [(a, v)]
  | (k, w) :: m, a, v => if k < a then (k, w) :: Memory.insert m a v else (a, v) :: (k, w) :: m

/-- `M[a] <- v`, keeping the canonical form. -/
def Memory.set (m : Memory) (a : Nat) (v : Byte) : Memory :=
  let others := m.filter (fun c => c.1 != a)
  if v = Memory.unlisted then others else Memory.insert others a v

/-- The `n` bytes from address `a` up. -/
def Memory.bytesFrom (m : Memory) (a : Nat) : Nat → List Byte
  | 0 => []
  | n + 1 => m.get a :: Memory.bytesFrom m (a + 1) n

/-- Copies bytes to ascending addresses from `a` (R45's loop). -/
def Memory.copy (m : Memory) (a : Nat) : List Byte → Memory
  | [] => m
  | b :: bs => Memory.copy (m.set a b) (a + 1) bs

/-! ## Registers and control state -/

/-- `A <- v`. -/
def State.setA (s : State) (v : Byte) : State := { s with a := v }

/-- `X <- v`. -/
def State.setX (s : State) (v : Byte) : State := { s with x := v }

/-- `P <- v`. -/
def State.setP (s : State) (v : Status) : State := { s with p := v }

/-- `PC <- v`. -/
def State.setPc (s : State) (v : Word) : State := { s with pc := v }

/-- Replaces memory. -/
def State.setMem (s : State) (m : Memory) : State := { s with mem := m }

/-- `RunState <- r`. -/
def State.setRunState (s : State) (r : RunState) : State := { s with runState := r }

/-- Replaces the host's pending calls. -/
def State.setCalls (s : State) (cs : List HostCall) : State := { s with calls := cs }

/-- Records a byte that `mem_read` returned. -/
def State.addSeen (s : State) (v : Byte) : State := { s with seen := v :: s.seen }

/-- R14, R93: every advance of `PC` is `add16`. -/
def State.advance (s : State) (n : Nat) : State := s.setPc (add16 s.pc (BitVec.ofNat 16 n))

/-- R8, R95 `halt`: the run ends in state Halted. -/
def State.halt (s : State) : State := s.setRunState .halted

/-! ## The memory primitives -/

/-- R31 `MemRead(addr, 1)`. -/
def memRead (s : State) (addr : Word) : Except Fault Byte :=
  if cellExists addr.toNat then .ok (s.mem.get addr.toNat) else .error (.memoryOutOfRange addr)

/-- R32 `MemWrite(addr, 1, v)`. -/
def memWrite (s : State) (addr : Word) (v : Byte) : Except Fault State :=
  if cellExists addr.toNat then .ok (s.setMem (s.mem.set addr.toNat v)) else .error (.memoryOutOfRange addr)

/-- R34 `MemRead(addr, 2)`: the low byte at `addr`, read first, and the high byte at `addr + 1`, without wrap. -/
def memRead16 (s : State) (addr : Word) : Except Fault Word :=
  if addr = 0xFFFF then .error (.memoryOutOfRange 0xFFFF)
  else
    match memRead s addr with
    | .error f => .error f
    | .ok lo =>
      match memRead s (addr + 1) with
      | .error f => .error f
      | .ok hi => .ok (wordOf hi lo)

/-- R35 `MemWrite(addr, 2, v)`: low byte first, without wrap. -/
def memWrite16 (s : State) (addr : Word) (v : Word) : Except Fault State :=
  if addr = 0xFFFF then .error (.memoryOutOfRange 0xFFFF)
  else
    match memWrite s addr (lowByte v) with
    | .error f => .error f
    | .ok t => memWrite t (addr + 1) (highByte v)

end Sys2Proof.Machine
end

