-- ==== Sys2Proof/Machine/Flags.lean ====
section
/-! DEFINITION. The status register's named flags and `SetZN` (R15 to R23). -/

namespace Sys2Proof.Machine

/-- The six named flags of R15. Bits 5 and 4 have no name (R22). -/
inductive Flag where
  | n
  | v
  | d
  | i
  | z
  | c
  deriving DecidableEq, Repr

/-- R8 `P.N` ... `P.C`: the flag as read. -/
def Status.flag (p : Status) : Flag → Bool
  | .n => p.n
  | .v => p.v
  | .d => p.d
  | .i => p.i
  | .z => p.z
  | .c => p.c

/-- The flag written alone. -/
def Status.setFlag (p : Status) (f : Flag) (b : Bool) : Status :=
  match f with
  | .n => { p with n := b }
  | .v => { p with v := b }
  | .d => { p with d := b }
  | .i => { p with i := b }
  | .z => { p with z := b }
  | .c => { p with c := b }

/-- The flag as read. -/
def State.flag (s : State) (f : Flag) : Bool := s.p.flag f

/-- The flag written alone (R8 `P.Z <- b`). -/
def State.setFlag (s : State) (f : Flag) (b : Bool) : State := s.setP (s.p.setFlag f b)

/-- R23 `SetZN(v)`: Zero iff `v` is 0x00, Negative iff bit 7 of `v` is set; every other bit of `P` keeps its value. -/
def State.setZN (s : State) (v : Byte) : State :=
  (s.setFlag .z (v == 0x00)).setFlag .n (v.getLsbD 7)

/-! ## The layout of R15, for a reader who wants `P` as a byte

PRESUMED by the spec (D1), log entry 2. No instruction, no host call and no observation uses it. -/

/-- R15: the bit position of a flag in `P`. -/
def Flag.bit : Flag → Nat
  | .n => 7
  | .v => 6
  | .d => 3
  | .i => 2
  | .z => 1
  | .c => 0

/-- R15: the flag's mask in `P`. -/
def Flag.mask (f : Flag) : Byte := 1#8 <<< f.bit

/-- R15: `P` as a byte, bit 7 first. -/
def Status.toByte (p : Status) : Byte :=
  BitVec.ofBoolListBE [p.n, p.v, p.spareHigh, p.spareLow, p.d, p.i, p.z, p.c]

/-- R15: the register that a byte is the view of. -/
def Status.ofByte (b : Byte) : Status where
  n := b.getLsbD 7
  v := b.getLsbD 6
  spareHigh := b.getLsbD 5
  spareLow := b.getLsbD 4
  d := b.getLsbD 3
  i := b.getLsbD 2
  z := b.getLsbD 1
  c := b.getLsbD 0

end Sys2Proof.Machine
end

