-- ==== Sys2Proof/Machine/Operands.lean ====
section
/-! DEFINITION. The addressing modes (R70 to R80): the address an assembled operand stands for, the operand's value,
and the resolver `Resolve(mode)` as the spec writes it, reading its operand bytes at `PC`. -/

namespace Sys2Proof.Machine

/-- R78, R79: the little-endian address in the zero page at `ptr`, its high byte at `ptr + 1` modulo 256. The low byte
is read first. -/
def pointerAt (s : State) (ptr : Byte) : Except Fault Word :=
  match memRead s (zext16 ptr) with
  | .error f => .error f
  | .ok lo =>
    match memRead s (zext16 (add8 ptr 1)) with
    | .error f => .error f
    | .ok hi => .ok (wordOf hi lo)

/-- The effective address of an operand whose instruction's opcode is at `PC` (R71 to R80). The immediate byte stands
just after the opcode (R71). -/
def operandAddress (o : Operand) (s : State) : Except Fault Word :=
  match o with
  | .immediate _ => .ok (add16 s.pc 1)
  | .zeroPage n => .ok (zext16 n)
  | .zeroPageX n => .ok (zext16 (add8 n s.x))
  | .zeroPageY n => .ok (zext16 (add8 n s.y))
  | .absolute a => .ok a
  | .absoluteX a => .ok (add16 a (zext16 s.x))
  | .absoluteY a => .ok (add16 a (zext16 s.y))
  | .indirectX n => pointerAt s (add8 n s.x)
  | .indirectY n =>
    match pointerAt s n with
    | .error f => .error f
    | .ok base => .ok (add16 base (zext16 s.y))
  | .noneAddressing => .error .invalidAddressingMode

/-- The byte a load reads through an operand. The immediate operand is its own value (R52, R71; log entry 11). -/
def operandValue (o : Operand) (s : State) : Except Fault Byte :=
  match o with
  | .immediate n => .ok n
  | o =>
    match operandAddress o s with
    | .error f => .error f
    | .ok ea => memRead s ea

/-- R70 `Resolve(mode)`, at a `PC` just past the opcode byte. -/
def resolve (mode : Mode) (s : State) : Except Fault Word :=
  match mode with
  | .immediate => .ok s.pc
  | .zeroPage =>
    match memRead s s.pc with
    | .error f => .error f
    | .ok op => .ok (zext16 op)
  | .zeroPageX =>
    match memRead s s.pc with
    | .error f => .error f
    | .ok op => .ok (zext16 (add8 op s.x))
  | .zeroPageY =>
    match memRead s s.pc with
    | .error f => .error f
    | .ok op => .ok (zext16 (add8 op s.y))
  | .absolute => memRead16 s s.pc
  | .absoluteX =>
    match memRead16 s s.pc with
    | .error f => .error f
    | .ok base => .ok (add16 base (zext16 s.x))
  | .absoluteY =>
    match memRead16 s s.pc with
    | .error f => .error f
    | .ok base => .ok (add16 base (zext16 s.y))
  | .indirectX =>
    match memRead s s.pc with
    | .error f => .error f
    | .ok op => pointerAt s (add8 op s.x)
  | .indirectY =>
    match memRead s s.pc with
    | .error f => .error f
    | .ok op =>
      match pointerAt s op with
      | .error f => .error f
      | .ok base => .ok (add16 base (zext16 s.y))
  | .noneAddressing => .error .invalidAddressingMode

end Sys2Proof.Machine
end

