-- ==== Sys2Proof/Machine/LoadStore.lean ====
section
/-! DEFINITION. LDA in its eight forms and STA in its seven (42_load_store.md). A meaning runs at the state whose `PC`
is the address `pc0` of its opcode byte, its operand bytes already read, and advances `PC` by the whole length
(R93; log entry 10). -/

namespace Sys2Proof.Machine

/-- R110, LDA: the operand's byte into `A`, Zero and Negative from it, `PC` past the instruction. -/
def load (o : Operand) (s : State) : Result :=
  match operandValue o s with
  | .error f => raise f
  | .ok v => .next (((s.setA v).setZN v).advance o.length)

/-- R120, STA: `A` into the cell at the effective address, `PC` past the instruction; no flag changes. -/
def store (o : Operand) (s : State) : Result :=
  match operandAddress o s with
  | .error f => raise f
  | .ok ea =>
    match memWrite s ea s.a with
    | .error f => raise f
    | .ok t => .next (t.advance o.length)

/-- LDA #$nn, R111. -/
def execLdaImm (n : Byte) (s : State) : Result := load (.immediate n) s

/-- LDA $nn, R112. -/
def execLdaZp (n : Byte) (s : State) : Result := load (.zeroPage n) s

/-- LDA $nn,X, R113. -/
def execLdaZpX (n : Byte) (s : State) : Result := load (.zeroPageX n) s

/-- LDA $hhll, R114. -/
def execLdaAbs (a : Word) (s : State) : Result := load (.absolute a) s

/-- LDA $hhll,X, R115. -/
def execLdaAbsX (a : Word) (s : State) : Result := load (.absoluteX a) s

/-- LDA $hhll,Y, R116. -/
def execLdaAbsY (a : Word) (s : State) : Result := load (.absoluteY a) s

/-- LDA ($nn,X), R117. -/
def execLdaIndX (n : Byte) (s : State) : Result := load (.indirectX n) s

/-- LDA ($nn),Y, R118. -/
def execLdaIndY (n : Byte) (s : State) : Result := load (.indirectY n) s

/-- STA $nn, R121. -/
def execStaZp (n : Byte) (s : State) : Result := store (.zeroPage n) s

/-- STA $nn,X, R122. -/
def execStaZpX (n : Byte) (s : State) : Result := store (.zeroPageX n) s

/-- STA $hhll, R123. -/
def execStaAbs (a : Word) (s : State) : Result := store (.absolute a) s

/-- STA $hhll,X, R124. -/
def execStaAbsX (a : Word) (s : State) : Result := store (.absoluteX a) s

/-- STA $hhll,Y, R125. -/
def execStaAbsY (a : Word) (s : State) : Result := store (.absoluteY a) s

/-- STA ($nn,X), R126. -/
def execStaIndX (n : Byte) (s : State) : Result := store (.indirectX n) s

/-- STA ($nn),Y, R127. -/
def execStaIndY (n : Byte) (s : State) : Result := store (.indirectY n) s

end Sys2Proof.Machine
end

