-- ==== Sys2Proof/Machine/Register.lean ====
section
/-! DEFINITION. TAX and INX (43_register_ops.md). `PC` is the address of the opcode byte, as in LoadStore.lean. -/

namespace Sys2Proof.Machine

/-- TAX and INX end alike: the value into `X`, Zero and Negative from it, `PC` past the one byte (R140, R141). -/
def intoX (v : Byte) (s : State) : Result := .next (((s.setX v).setZN v).advance 1)

/-- TAX, R140. -/
def execTax (s : State) : Result := intoX s.a s

/-- INX, R141: modulo 256, Carry and Overflow not written. -/
def execInx (s : State) : Result := intoX (add8 s.x 1) s

end Sys2Proof.Machine
end

