-- ==== Sys2Proof/Machine/System.lean ====
section
/-! DEFINITION. BRK (44_system.md). It is no trap: nothing is saved, no vector is read, the run halts (R150). -/

namespace Sys2Proof.Machine

/-- BRK, R150, R95: `PC` one past the opcode byte (C1), `RunState` Halted, nothing else. -/
def execBrk (s : State) : Result := .next ((s.advance 1).halt)

end Sys2Proof.Machine
end

