-- ==== Sys2Proof/Machine/Dispatch.lean ====
section
/-! DEFINITION. The dispatch of R94: one arm per instruction, each one call of its meaning. -/

namespace Sys2Proof.Machine

def exec (i : Instr) (s : State) : Host.Outcome State Fault Refusal :=
  match i with
  | .brk => Sys2Proof.Machine.execBrk s
  | .ldaImm n => Sys2Proof.Machine.execLdaImm n s
  | .ldaZp n => Sys2Proof.Machine.execLdaZp n s
  | .ldaZpX n => Sys2Proof.Machine.execLdaZpX n s
  | .ldaAbs a => Sys2Proof.Machine.execLdaAbs a s
  | .ldaAbsX a => Sys2Proof.Machine.execLdaAbsX a s
  | .ldaAbsY a => Sys2Proof.Machine.execLdaAbsY a s
  | .ldaIndX n => Sys2Proof.Machine.execLdaIndX n s
  | .ldaIndY n => Sys2Proof.Machine.execLdaIndY n s
  | .staZp n => Sys2Proof.Machine.execStaZp n s
  | .staZpX n => Sys2Proof.Machine.execStaZpX n s
  | .staAbs a => Sys2Proof.Machine.execStaAbs a s
  | .staAbsX a => Sys2Proof.Machine.execStaAbsX a s
  | .staAbsY a => Sys2Proof.Machine.execStaAbsY a s
  | .staIndX n => Sys2Proof.Machine.execStaIndX n s
  | .staIndY n => Sys2Proof.Machine.execStaIndY n s
  | .tax => Sys2Proof.Machine.execTax s
  | .inx => Sys2Proof.Machine.execInx s

end Sys2Proof.Machine
end

