-- ==== Sys2Proof/Machine/Fetch.lean ====
section
/-! DEFINITION. Fetching and decoding the instruction at `PC` (R92 lines 1 to 6, R47, R97), and placing an
instruction's bytes there. -/

namespace Sys2Proof.Machine

/-- Reads `n` bytes at ascending addresses from `addr` (R47, R50); the first that has no cell faults. -/
def fetchBytes (s : State) (addr : Word) : Nat → Except Fault (List Byte)
  | 0 => .ok []
  | n + 1 =>
    match memRead s addr with
    | .error f => .error f
    | .ok b =>
      match fetchBytes s (add16 addr 1) n with
      | .error f => .error f
      | .ok bs => .ok (b :: bs)

/-- R92 lines 5 and 6 for a registered, unimplemented opcode: its address is resolved, which may fault first (R152,
R166); then the instruction faults. The state is the one whose `PC` is `pc0`. -/
def unimplementedFault (d : Descriptor) (b : Byte) (s : State) : Fault :=
  match d.mode with
  | .noneAddressing => .unimplementedInstruction b s.pc
  | mode =>
    match resolve mode (s.advance 1) with
    | .error f => f
    | .ok _ => .unimplementedInstruction b s.pc

/-- The instruction at `PC`, for any value `extra` of `EXTRA_OPCODES`, or the fault its fetch ends in, in the order of
R97: opcode fetch, table lookup, operand bytes (for BRK there are none, so it halts before anything else can fault). -/
def fetchInstr (extra : List Descriptor) (s : State) : Except Fault Instr :=
  match memRead s s.pc with
  | .error f => .error f
  | .ok b =>
    match lookup extra b with
    | .unrecognised => .error (.unrecognizedOpcode b s.pc)
    | .unimplemented d => .error (unimplementedFault d b s)
    | .implemented d =>
      match fetchBytes s (add16 s.pc 1) (d.length - 1) with
      | .error f => .error f
      | .ok ops =>
        match decodeWith extra (b :: ops) with
        | .ok (i, _) => .ok i
        | .error _ => .error .invalidAddressingMode

/-- Stores bytes at ascending addresses from `addr`, leaving out those that name no cell. -/
def placeBytes (m : Memory) (addr : Nat) : List Byte → Memory
  | [] => m
  | b :: bs => placeBytes (if cellExists addr then m.set addr b else m) (addr + 1) bs

/-- The state with these bytes at `PC`, inside a run, so that the next step fetches them (log entry 8). -/
def placeAtPc (s : State) (bytes : List Byte) : State :=
  (s.setMem (placeBytes s.mem s.pc.toNat bytes)).setRunState .running

end Sys2Proof.Machine
end

