-- ==== Sys2Proof/Machine/HostCalls.lean ====
section
/-! DEFINITION. The host's calls (70_reset_and_hazards.md) and its turn while no run is under way (R6, R189). -/

namespace Sys2Proof.Machine

/-- R181 `reset()`: A, X and all of P zero, PC from the reset vector; Y, memory and RunState keep their values. -/
def resetCall (s : State) : Except Fault State :=
  match memRead16 s Config.resetVector with
  | .error f => .error f
  | .ok vector => .ok ((((s.setA 0x00).setX 0x00).setP Status.zero).setPc vector)

/-- R183, R91, R99 `run()`: the run begins at the current `PC`; nothing is reset. -/
def runCall (s : State) : State := s.setRunState .running

/-- R45: an image of `n` bytes at `origin` fits before the end of memory. -/
def imageFits (origin : Word) (n : Nat) : Bool := decide (origin.toNat + n ≤ Config.memSize)

/-- R45 `load_program(origin, bytes)`. -/
def loadProgram (s : State) (origin : Word) (bytes : List Byte) : State :=
  s.setMem (s.mem.copy origin.toNat bytes)

/-- R182 `load_and_run(bytes)`, up to the start of the run: load at the origin, write the origin into the vector,
reset, run. -/
def loadAndRunCall (s : State) (bytes : List Byte) : Except Fault State :=
  match memWrite16 (loadProgram s Config.programOrigin bytes) Config.resetVector Config.programOrigin with
  | .error f => .error f
  | .ok t =>
    match resetCall t with
    | .error f => .error f
    | .ok u => .ok (runCall u)

/-- The answer of a call that the contract admits. -/
def answer : Except Fault State → Result
  | .ok s => .next s
  | .error f => raise f

/-- R184 `mem_write(addr, byte)`; out of contract at 0xFFFF. -/
def memWriteCall (s : State) (addr : Word) (v : Byte) : Result :=
  if cellExists addr.toNat then answer (memWrite s addr v) else .refused (.hostAddressOutOfContract addr)

/-- R185 `mem_write16(addr, value)`; out of contract at 0xFFFE and 0xFFFF. -/
def memWrite16Call (s : State) (addr : Word) (v : Word) : Result :=
  if cellExists (addr.toNat + 1) then answer (memWrite16 s addr v) else .refused (.hostAddressOutOfContract addr)

/-- R186 `mem_read(addr)`: the byte goes to the host; out of contract at 0xFFFF. -/
def memReadCall (s : State) (addr : Word) : Result :=
  if cellExists addr.toNat then
    match memRead s addr with
    | .error f => raise f
    | .ok v => .next (s.addSeen v)
  else .refused (.hostAddressOutOfContract addr)

/-- One host call (R181 to R186); a call outside the contract is refused (D19, D20). -/
def hostCall (c : HostCall) (s : State) : Result :=
  match c with
  | .reset => answer (resetCall s)
  | .run => .next (runCall s)
  | .loadAndRun bytes =>
    if imageFits Config.programOrigin bytes.length then answer (loadAndRunCall s bytes)
    else .refused (.imageTooLong bytes.length)
  | .memWrite addr v => memWriteCall s addr v
  | .memWrite16 addr v => memWrite16Call s addr v
  | .memRead addr => memReadCall s addr

/-- The host's turn, in Ready or Halted: it makes its next call; when it has none, the core does nothing and all state
survives (R176; log entry 7). -/
def hostTurn (s : State) : Result :=
  match s.calls with
  | [] => .next s
  | c :: rest => hostCall c (s.setCalls rest)

/-- The calls that read `n` cells from `addr` up. -/
def readCalls (addr : Word) : Nat → List HostCall
  | 0 => []
  | n + 1 => .memRead addr :: readCalls (add16 addr 1) n

/-- R190: the calls of one frame, for any random byte and, if a key was pressed, any key code. -/
def frameCalls (random : Byte) (key : Option Byte) : List HostCall :=
  .memWrite Config.randCell random
    :: (key.toList.map (.memWrite Config.keyCell)
      ++ .run :: readCalls Config.frameBase Config.frameCells)

end Sys2Proof.Machine
end

