-- ==== Sys2Proof/Machine/Step.lean ====
section
/-! DEFINITION. One step of the machine: of the core inside a run (R92), of the host outside it (R6, R90). -/

namespace Sys2Proof.Machine

/-- R92 `Step()`: the instruction at `PC` is fetched and executed, or its fetch faults. -/
def runStep (extra : List Descriptor) (s : State) : Host.Outcome State Fault Refusal :=
  match fetchInstr extra s with
  | .error f => raise f
  | .ok i => exec i s

/-- One step, for any value of `EXTRA_OPCODES` (R5). -/
def stepWith (extra : List Descriptor) (s : State) : Host.Outcome State Fault Refusal :=
  match s.runState with
  | .running => runStep extra s
  | .ready => hostTurn s
  | .halted => hostTurn s
  | .faulted => .refused .faultedInstance

/-- One step of this hardware. -/
def step (s : State) : Host.Outcome State Fault Refusal := stepWith extraTable s

/-- The state with the instruction whose bits are `w` (as spec/opcode_table.json numbers them) where the next step
fetches, inside a run. -/
def State.withFetchWord (s : State) (nbits w : Nat) : State := placeAtPc s (tableWordBytes nbits w)

end Sys2Proof.Machine
end

