-- ==== Sys2Proof/Machine/Reference.lean ====
section
/-! DEFINITION. R92's `Step()` transcribed line by line, with the resolver reading its operand bytes from memory at
`PC` and one handler per mnemonic. The machine's step decodes first and dispatches by instruction; a claim says that
the two agree on every state. -/

namespace Sys2Proof.Machine

/-- R92 line 5: the operand's address, if the mode takes one. -/
def specResolve (mode : Mode) (s : State) : Except Fault (Option Word) :=
  if mode = .noneAddressing then .ok none
  else
    match resolve mode s with
    | .error f => .error f
    | .ok ea => .ok (some ea)

/-- R92 line 7: the handlers. A handler whose operand is missing is R163's mismatch. -/
def specHandler (m : Mnemonic) (ea : Option Word) (s : State) : Except Fault State :=
  match m, ea with
  | .lda, some ea =>
    match memRead s ea with
    | .error f => .error f
    | .ok v => .ok ((s.setA v).setZN v)
  | .sta, some ea => memWrite s ea s.a
  | .tax, _ => .ok ((s.setX s.a).setZN s.a)
  | .inx, _ => .ok ((s.setX (add8 s.x 1)).setZN (add8 s.x 1))
  | _, _ => .error .invalidAddressingMode

/-- R92 `Step()`. -/
def specStep (extra : List Descriptor) (s : State) : Result :=
  match memRead s s.pc with                                                     -- line 1
  | .error f => raise f
  | .ok b =>
    let s1 := s.setPc (add16 s.pc 1)                                            -- line 2
    match (lookup extra b).descriptor? with                                     -- line 3
    | none => raise (.unrecognizedOpcode b s.pc)
    | some d =>
      if d.mnemonic = .brk then .next s1.halt                                   -- line 4
      else
        match specResolve d.mode s1 with                                        -- line 5
        | .error f => raise f
        | .ok ea =>
          if lookup extra b = .unimplemented d then
            raise (.unimplementedInstruction b s.pc)                            -- line 6
          else
            match specHandler d.mnemonic ea s1 with                             -- line 7
            | .error f => raise f
            | .ok t => .next (t.setPc (add16 t.pc (BitVec.ofNat 16 (d.length - 1))))  -- line 8

end Sys2Proof.Machine
end

