-- ==== Sys2Proof/Safety.lean ====
section
/-! DEFINITION. The terms claims use: how a run ends (R91, R195), what an instruction's effect leaves and keeps (R29),
and the host's and the core's parts of the state. -/

namespace Sys2Proof.Safety

open Sys2Proof Sys2Proof.Machine

/-- How a run ends (R195), or that it has not ended within the steps given. -/
inductive RunEnd where
  | halted (s : State)
  | faulted (f : Fault)
  | refused (r : Refusal)
  | unfinished (s : State)
  deriving DecidableEq, Repr

/-- R91's loop, for at most `n` steps: step until a step halts or faults. -/
def runLoop : Nat → State → RunEnd
  | 0, s => .unfinished s
  | n + 1, s =>
    match step s with
    | .fault f => .faulted f
    | .refused r => .refused r
    | .next t => if t.runState = .running then runLoop n t else .halted t

/-- R196: what a postcondition may speak of when a run halts: the registers, the six flags, each under its name, and
memory. No bit of `P` has a number here, and the two bits without a name and the host's fields do not appear. -/
structure Observation where
  a : Byte
  x : Byte
  y : Byte
  pc : Word
  negative : Bool
  overflow : Bool
  decimal : Bool
  interruptDisable : Bool
  zero : Bool
  carry : Bool
  mem : Memory
  deriving DecidableEq, Repr

/-- What is observed of a state (R196). -/
def observe (s : State) : Observation where
  a := s.a
  x := s.x
  y := s.y
  pc := s.pc
  negative := s.flag .n
  overflow := s.flag .v
  decimal := s.flag .d
  interruptDisable := s.flag .i
  zero := s.flag .z
  carry := s.flag .c
  mem := s.mem

/-- R195, R196: how a run ends, as a claim may see it. A faulted run has a record and no state. -/
inductive Ending where
  | halted (o : Observation)
  | faulted (f : Fault)
  deriving DecidableEq, Repr

/-- The ending of a run, if it has one. -/
def RunEnd.ending : RunEnd → Option Ending
  | .halted s => some (.halted (observe s))
  | .faulted f => some (.faulted f)
  | .refused _ => none
  | .unfinished _ => none

/-- R196: a postcondition speaks of the ending alone. -/
abbrev Postcondition := Ending → Prop

/-- The run that begins at `s` ends, and its ending meets the postcondition (R195: at most 65,536 steps). -/
def RunMeets (s : State) (post : Postcondition) : Prop := ∃ e, (runLoop 65536 s).ending = some e ∧ post e

/-- `M[addr]`. -/
def cell (s : State) (addr : Word) : Byte := s.mem.get addr.toNat

/-- R78, R79: the little-endian address the zero page holds at `ptr`, its high byte at `ptr + 1` modulo 256. -/
def zeroPagePointer (s : State) (ptr : Byte) : Word := wordOf (cell s (zext16 (ptr + 1))) (cell s (zext16 ptr))

/-- R54: the eighteen implemented opcode bytes. -/
def implementedOpcodes : List Byte :=
  [0x00, 0xA9, 0xA5, 0xB5, 0xAD, 0xBD, 0xB9, 0xA1, 0xB1, 0x85, 0x95, 0x8D, 0x9D, 0x99, 0x81, 0x91, 0xAA, 0xE8]

/-- The host may act: no run is under way and none has faulted (R189). -/
def HostMayAct (s : State) : Prop := s.runState = .ready ∨ s.runState = .halted

/-- The registers hold the same values. -/
def SameRegisters (s t : State) : Prop := t.a = s.a ∧ t.x = s.x ∧ t.y = s.y ∧ t.pc = s.pc ∧ t.p = s.p

/-- R164: with opcode byte `b` at `pc0`, so near the top that an operand byte has no cell, a step faults. -/
def OperandMissing (b : Byte) (s : State) (pc0 : Word) : Prop :=
  s.runState = .running → s.pc = pc0 → memRead s pc0 = .ok b → step s = .fault (.memoryOutOfRange 0xFFFF)

/-- The instruction's data access is at 0xFFFF: it faults with `MemoryOutOfRange(0xFFFF)` (R164). -/
def AccessFaults (i : Instr) (s : State) : Prop := exec i s = .fault (.memoryOutOfRange 0xFFFF)

/-- The bytes `bs` stand in memory at address `a` and up, each in a cell that exists. -/
def BytesAt (s : State) (a : Nat) (bs : List Byte) : Prop :=
  a + bs.length ≤ Config.memSize ∧ s.mem.bytesFrom a bs.length = bs

/-- Inside a run, with the instruction's bytes at `PC`, the step is that instruction's `exec` (R92). -/
def StepIs (i : Instr) (s : State) : Prop :=
  s.runState = .running → BytesAt s s.pc.toNat (encode i) → step s = exec i s

/-- What the host side of the state holds is the same. -/
def SameHost (s t : State) : Prop := t.calls = s.calls ∧ t.seen = s.seen

/-- The two bits of `P` without a name (R22) hold the same values. -/
def SameSpares (s t : State) : Prop := t.p.spareHigh = s.p.spareHigh ∧ t.p.spareLow = s.p.spareLow

/-- The host's next call resets: `reset()`, or `load_and_run`, which performs one (R181, R182). -/
def ResetsNext (s : State) : Prop := ∃ rest, s.calls = .reset :: rest ∨ ∃ bytes, s.calls = .loadAndRun bytes :: rest

/-- R23: Zero and Negative are recomputed from `v`; the other four flags and the two bits without a name keep their
values. -/
def FlagsFrom (s t : State) (v : Byte) : Prop :=
  (t.flag .z = true ↔ v = 0x00) ∧ t.flag .n = v.getLsbD 7 ∧
  (∀ f : Flag, f ≠ .z → f ≠ .n → t.flag f = s.flag f) ∧ SameSpares s t

/-- Every byte of memory reads as before. -/
def SameReads (s t : State) : Prop := ∀ addr : Word, memRead t addr = memRead s addr

/-- Every byte of memory but the one at `ea` reads as before. -/
def SameReadsBut (ea : Word) (s t : State) : Prop := ∀ addr : Word, addr ≠ ea → memRead t addr = memRead s addr

/-- R110: an LDA form completes from `s`, having read `v`, `len` bytes long: `A` and the two flags from `v`, `PC`
advanced, everything else kept (R29). -/
def LoadsByte (i : Instr) (s : State) (v : Byte) (len : Word) : Prop :=
  ∃ t, exec i s = .next t ∧ t.a = v ∧ FlagsFrom s t v ∧ t.pc = s.pc + len ∧
    t.x = s.x ∧ t.y = s.y ∧ t.runState = s.runState ∧ SameReads s t ∧ SameHost s t

/-- R120: a STA form completes from `s`, `len` bytes long: the cell at `ea` reads `A`, every other cell reads as
before, `PC` is advanced, everything else is kept (R29). -/
def StoresAt (i : Instr) (s : State) (ea : Word) (len : Word) : Prop :=
  ∃ t, exec i s = .next t ∧ memRead t ea = .ok s.a ∧ SameReadsBut ea s t ∧ t.pc = s.pc + len ∧
    t.a = s.a ∧ t.x = s.x ∧ t.y = s.y ∧ t.p = s.p ∧ t.runState = s.runState ∧ SameHost s t

/-- R140, R141: an instruction completes from `s` with `v` in `X`, one byte long: the two flags from `v`, everything
else kept (R29). -/
def PutsInX (i : Instr) (s : State) (v : Byte) : Prop :=
  ∃ t, exec i s = .next t ∧ t.x = v ∧ FlagsFrom s t v ∧ t.pc = s.pc + 1 ∧
    t.a = s.a ∧ t.y = s.y ∧ t.runState = s.runState ∧ SameReads s t ∧ SameHost s t

end Sys2Proof.Safety
end

