-- ==== Sys2Proof/Certificates/Slice0/Obligations.lean ====
section
/-! DEFINITION. The statements for the provers. Each docstring names the rule of spec/ it formalises. -/

open Sys2Proof Sys2Proof.Machine Sys2Proof.Safety

/-! ## Encoding -/

/-- R54, R59: a few words written out from the spec decode to the instructions they stand for (sanity). The bytes but
A9, AA, E8 and 00 are PRESUMED by the spec (D8), log entry 4. -/
def Obligations.DecodedWordsOfTheTable : Prop :=
  decode [0x00] = .ok (.brk, []) ∧ decode [0xA9, 0x05, 0xAA] = .ok (.ldaImm 0x05, [0xAA]) ∧
  decode [0xB5, 0xFF] = .ok (.ldaZpX 0xFF, []) ∧ decode [0xAD, 0x34, 0x12] = .ok (.ldaAbs 0x1234, []) ∧
  decode [0xB1, 0x86] = .ok (.ldaIndY 0x86, []) ∧ decode [0x8D, 0x00, 0x02] = .ok (.staAbs 0x0200, []) ∧
  decode [0x81, 0xFE] = .ok (.staIndX 0xFE, []) ∧ decode [0xAA] = .ok (.tax, []) ∧ decode [0xE8] = .ok (.inx, [])

/-- R50, R52, R54: the decoder reads back every instruction from its encoding, with every operand, and leaves the
bytes that follow. -/
def Obligations.DecodeReadsBackEncode : Prop :=
  ∀ (i : Instr) (rest : List Byte), decode (encode i ++ rest) = .ok (i, rest)

/-- R50, R54: an instruction has one encoding: whatever decodes to it begins with its encoding. -/
def Obligations.DecodedBytesAreTheEncoding : Prop :=
  ∀ (bytes : List Byte) (i : Instr) (rest : List Byte), decode bytes = .ok (i, rest) → bytes = encode i ++ rest

/-- R53, R61: the implemented table has eighteen rows, each of a length that fits its mode, with unique keys, and the
value taken for EXTRA_OPCODES is one R56 admits. -/
def Obligations.OpcodeTableIsWellFormed : Prop :=
  tableWf opTable = true ∧ opTable.length = 18 ∧ extraWf opTable extraTable = true

/-- R58: `Decode(b)` is total and unique, for every value of EXTRA_OPCODES that R56 admits. -/
def Obligations.LookupIsTotalAndUnique : Prop :=
  ∀ (extra : List Descriptor) (b : Byte), extraWf opTable extra = true →
    (∀ d, lookup extra b = .implemented d ↔ d ∈ opTable ∧ d.code = b) ∧
    (∀ d, lookup extra b = .unimplemented d ↔ d ∈ extra ∧ d.code = b) ∧
    (lookup extra b = .unrecognised ↔ ∀ d, d ∈ opTable ∨ d ∈ extra → d.code ≠ b)

/-- R55, R161: exactly the 238 bytes outside R54 are unrecognised, by the decoder and by the step, whatever follows
them; an unrecognised byte is never a skip. -/
def Obligations.UnrecognizedOpcodesFault : Prop :=
  (∀ (b : Byte) (rest : List Byte), decode (b :: rest) = .error (.unrecognized b) ↔ b ∉ implementedOpcodes) ∧
  ∀ (s : State) (b : Byte), s.runState = .running → memRead s s.pc = .ok b →
    (step s = .fault (.unrecognizedOpcode b s.pc) ↔ b ∉ implementedOpcodes)

/-! ## Construction and reset -/

/-- R28, R180, R187: `new()` leaves every piece of state zero and RunState Ready; `reset()` right after it gives
`State.reset`, whose PC is the vector that zero memory holds. The two empty host fields are the model's (log entry 6). -/
def Obligations.NewAndResetStates : Prop :=
  (State.new.a = 0 ∧ State.new.x = 0 ∧ State.new.y = 0 ∧ State.new.p = Status.zero ∧ State.new.pc = 0 ∧
    State.new.runState = .ready ∧ ∀ addr : Word, addr ≠ 0xFFFF → memRead State.new addr = .ok 0x00) ∧
  resetCall State.new = .ok State.reset ∧
  (State.reset.a = 0 ∧ State.reset.x = 0 ∧ State.reset.y = 0 ∧ State.reset.p = Status.zero ∧ State.reset.pc = 0 ∧
    State.reset.runState = .ready ∧ ∀ addr : Word, addr ≠ 0xFFFF → memRead State.reset addr = .ok 0x00)

/-- R181: the host's `reset()`, from any state in which the host may act. That the host stands in the state as pending
calls and bytes seen is the model's choice, log entry 6. -/
def Obligations.ResetCallRule : Prop :=
  ∀ (s : State) (rest : List HostCall), HostMayAct s → s.calls = .reset :: rest →
    ∃ t, step s = .next t ∧ t.a = 0x00 ∧ t.x = 0x00 ∧ t.p = Status.zero ∧
      t.pc = wordOf (cell s 0xFFFD) (cell s 0xFFFC) ∧
      t.y = s.y ∧ SameReads s t ∧ t.runState = s.runState ∧ t.calls = rest ∧ t.seen = s.seen

/-! ## Memory -/

/-- R31, R33: a byte read. -/
def Obligations.ByteReadRule : Prop :=
  ∀ (s : State) (addr : Word),
    (addr ≠ 0xFFFF → memRead s addr = .ok (cell s addr)) ∧
    (addr = 0xFFFF → memRead s addr = .error (.memoryOutOfRange 0xFFFF))

/-- R32, R33: a byte write changes exactly one cell, and a read of it gives the byte written. -/
def Obligations.ByteWriteRule : Prop :=
  ∀ (s : State) (addr : Word) (v : Byte),
    (addr ≠ 0xFFFF → ∃ t, memWrite s addr v = .ok t ∧ memRead t addr = .ok v ∧ SameReadsBut addr s t ∧
      SameRegisters s t ∧ t.runState = s.runState ∧ SameHost s t) ∧
    (addr = 0xFFFF → memWrite s addr v = .error (.memoryOutOfRange 0xFFFF))

/-- R34: a 16-bit read is little-endian and does not wrap. -/
def Obligations.WordReadRule : Prop :=
  ∀ (s : State) (addr : Word),
    (addr.toNat < 0xFFFE → memRead16 s addr = .ok (wordOf (cell s (addr + 1)) (cell s addr))) ∧
    (0xFFFE ≤ addr.toNat → memRead16 s addr = .error (.memoryOutOfRange 0xFFFF))

/-- R35, R36: a 16-bit write is little-endian, does not wrap, changes two cells, and reads back. -/
def Obligations.WordWriteRule : Prop :=
  ∀ (s : State) (addr v : Word),
    (addr.toNat < 0xFFFE → ∃ t, memWrite16 s addr v = .ok t ∧
      memRead t addr = .ok (v.extractLsb' 0 8) ∧ memRead t (addr + 1) = .ok (v.extractLsb' 8 8) ∧
      memRead16 t addr = .ok v ∧ (∀ b : Word, b ≠ addr → b ≠ addr + 1 → memRead t b = memRead s b) ∧
      SameRegisters s t ∧ t.runState = s.runState ∧ SameHost s t) ∧
    (0xFFFE ≤ addr.toNat → memWrite16 s addr v = .error (.memoryOutOfRange 0xFFFF))

/-- The canonical form of memory (the model's representation of R24) is kept by every step, of the core and of the
host. -/
def Obligations.StepKeepsMemoryCanonical : Prop :=
  ∀ s t : State, s.mem.wf → step s = .next t → t.mem.wf

/-- The canonical form holds after reset. -/
def Obligations.ResetMemoryIsCanonical : Prop := State.reset.mem.wf

/-! ## Flags -/

/-- R23: `SetZN`, for every byte and every state; it writes nothing but Zero and Negative, which are never both 1
after it. LDA, TAX and INX recompute the two flags from the value they produce; STA and BRK keep `P`. -/
def Obligations.SetZNRule : Prop :=
  ∀ (s : State) (v : Byte),
    FlagsFrom s (s.setZN v) v ∧ ¬((s.setZN v).flag .z = true ∧ (s.setZN v).flag .n = true) ∧
    (s.setZN v).setP s.p = s ∧
    ∀ (i : Instr) (t : State), exec i s = .next t →
      (i.mnemonic = .lda → FlagsFrom s t t.a) ∧ (i = .tax ∨ i = .inx → FlagsFrom s t t.x) ∧
      (i.mnemonic = .sta ∨ i = .brk → t.p = s.p)

/-- R17, R18, R19, R21, R22: no instruction writes Overflow, Decimal, Interrupt-Disable, Carry or the two bits without a
name; outside a run `P` is zeroed whole where the host's next call is `reset()` or `load_and_run`, and kept otherwise. -/
def Obligations.OnlyResetWritesTheOtherFlags : Prop :=
  ∀ s t : State, step s = .next t →
    (s.runState = .running → (∀ f : Flag, f ≠ .z → f ≠ .n → t.flag f = s.flag f) ∧ SameSpares s t) ∧
    (s.runState ≠ .running → (ResetsNext s → t.p = Status.zero) ∧ (¬ResetsNext s → t.p = s.p))

/-- R18, R19, R27: no bit of `P` has any effect on execution: two steps from states that differ only in `P` end alike
and differ at most in `P`. -/
def Obligations.FlagsNeverInfluenceExecution : Prop :=
  ∀ (s : State) (q : Status),
    (∀ t, step s = .next t → ∃ u, step (s.setP q) = .next u ∧ u.setP Status.zero = t.setP Status.zero) ∧
    (∀ f, step s = .fault f → step (s.setP q) = .fault f) ∧
    (∀ r, step s = .refused r → step (s.setP q) = .refused r)

/-- R23: that Zero and Negative are not both set is kept by every step; it holds after reset. -/
def Obligations.ZeroAndNegativeNeverBoth : Prop :=
  ¬(State.reset.flag .z = true ∧ State.reset.flag .n = true) ∧
  ∀ s t : State, ¬(s.flag .z = true ∧ s.flag .n = true) → step s = .next t →
    ¬(t.flag .z = true ∧ t.flag .n = true)

/-- R13: nothing writes Y. -/
def Obligations.NothingWritesY : Prop := ∀ s t : State, step s = .next t → t.y = s.y

/-! ## The resolver -/

/-- R71 to R74: the immediate and the zero-page modes. -/
def Obligations.ResolveZeroPageRules : Prop :=
  ∀ s : State,
    resolve .immediate s = .ok s.pc ∧
    (s.pc ≠ 0xFFFF →
      resolve .zeroPage s = .ok (zext16 (cell s s.pc)) ∧
      resolve .zeroPageX s = .ok (zext16 (cell s s.pc + s.x)) ∧
      resolve .zeroPageY s = .ok (zext16 (cell s s.pc + s.y))) ∧
    (∀ mode ea, mode = .zeroPage ∨ mode = .zeroPageX ∨ mode = .zeroPageY → resolve mode s = .ok ea → ea.toNat < 0x0100) ∧
    (s.pc = 0xFFFF → ∀ mode, mode = .zeroPage ∨ mode = .zeroPageX ∨ mode = .zeroPageY →
      resolve mode s = .error (.memoryOutOfRange 0xFFFF))

/-- R75 to R77: the absolute modes. -/
def Obligations.ResolveAbsoluteRules : Prop :=
  ∀ s : State,
    (s.pc.toNat < 0xFFFE →
      resolve .absolute s = .ok (wordOf (cell s (s.pc + 1)) (cell s s.pc)) ∧
      resolve .absoluteX s = .ok (wordOf (cell s (s.pc + 1)) (cell s s.pc) + zext16 s.x) ∧
      resolve .absoluteY s = .ok (wordOf (cell s (s.pc + 1)) (cell s s.pc) + zext16 s.y)) ∧
    (0xFFFE ≤ s.pc.toNat → ∀ mode, mode = .absolute ∨ mode = .absoluteX ∨ mode = .absoluteY →
      resolve mode s = .error (.memoryOutOfRange 0xFFFF))

/-- R78 to R80: the indirect modes and the no-operand mode. -/
def Obligations.ResolveIndirectRules : Prop :=
  ∀ s : State,
    (s.pc ≠ 0xFFFF →
      resolve .indirectX s = .ok (zeroPagePointer s (cell s s.pc + s.x)) ∧
      resolve .indirectY s = .ok (zeroPagePointer s (cell s s.pc) + zext16 s.y)) ∧
    (s.pc = 0xFFFF →
      resolve .indirectX s = .error (.memoryOutOfRange 0xFFFF) ∧
      resolve .indirectY s = .error (.memoryOutOfRange 0xFFFF)) ∧
    resolve .noneAddressing s = .error .invalidAddressingMode

/-- R82 (a), (d), (e): the resolver depends on the mode, PC, X, Y and memory alone, and its one fault with an operand
is an operand byte at 0xFFFF. -/
def Obligations.ResolverDependsAndFaults : Prop :=
  (∀ (mode : Mode) (s t : State), t.pc = s.pc → t.x = s.x → t.y = s.y → SameReads s t →
    resolve mode t = resolve mode s) ∧
  ∀ (mode : Mode) (s : State) (f : Fault), mode ≠ .noneAddressing → resolve mode s = .error f →
    f = .memoryOutOfRange 0xFFFF ∧ (s.pc = 0xFFFF ∨ s.pc = 0xFFFE ∧ mode.operandBytes = 2)

/-! ## LDA -/

/-- R111: LDA #$nn. -/
def Obligations.LdaImmediateRule : Prop :=
  ∀ (n : Byte) (s : State),
    encode (.ldaImm n) = [0xA9, n] ∧ (Instr.ldaImm n).text = "LDA #$" ++ hexByte n ∧
    StepIs (.ldaImm n) s ∧
    operandAddress (Instr.ldaImm n).operand s = .ok (s.pc + 1) ∧
    LoadsByte (.ldaImm n) s n 2 ∧ OperandMissing 0xA9 s 0xFFFE

/-- R112: LDA $nn. The opcode byte is PRESUMED by the spec (D8), log entry 4. -/
def Obligations.LdaZeroPageRule : Prop :=
  ∀ (n : Byte) (s : State),
    encode (.ldaZp n) = [0xA5, n] ∧ (Instr.ldaZp n).text = "LDA $" ++ hexByte n ∧
    StepIs (.ldaZp n) s ∧
    LoadsByte (.ldaZp n) s (cell s (zext16 n)) 2 ∧ OperandMissing 0xA5 s 0xFFFE

/-- R113: LDA $nn,X. The opcode byte is PRESUMED by the spec (D8), log entry 4. -/
def Obligations.LdaZeroPageXRule : Prop :=
  ∀ (n : Byte) (s : State),
    encode (.ldaZpX n) = [0xB5, n] ∧ (Instr.ldaZpX n).text = "LDA $" ++ hexByte n ++ ",X" ∧
    StepIs (.ldaZpX n) s ∧
    LoadsByte (.ldaZpX n) s (cell s (zext16 (n + s.x))) 2 ∧ OperandMissing 0xB5 s 0xFFFE

/-- R114: LDA $hhll. The opcode byte is PRESUMED by the spec (D8), log entry 4. -/
def Obligations.LdaAbsoluteRule : Prop :=
  ∀ (ll hh : Byte) (s : State),
    encode (.ldaAbs (wordOf hh ll)) = [0xAD, ll, hh] ∧
    (Instr.ldaAbs (wordOf hh ll)).text = "LDA $" ++ (hexByte hh ++ hexByte ll) ∧
    StepIs (.ldaAbs (wordOf hh ll)) s ∧
    (wordOf hh ll ≠ 0xFFFF → LoadsByte (.ldaAbs (wordOf hh ll)) s (cell s (wordOf hh ll)) 3) ∧
    (wordOf hh ll = 0xFFFF → AccessFaults (.ldaAbs (wordOf hh ll)) s) ∧
    OperandMissing 0xAD s 0xFFFD ∧ OperandMissing 0xAD s 0xFFFE

/-- R115: LDA $hhll,X. The opcode byte is PRESUMED by the spec (D8), log entry 4. -/
def Obligations.LdaAbsoluteXRule : Prop :=
  ∀ (ll hh : Byte) (s : State),
    encode (.ldaAbsX (wordOf hh ll)) = [0xBD, ll, hh] ∧
    (Instr.ldaAbsX (wordOf hh ll)).text = "LDA $" ++ (hexByte hh ++ hexByte ll) ++ ",X" ∧
    StepIs (.ldaAbsX (wordOf hh ll)) s ∧
    (wordOf hh ll + zext16 s.x ≠ 0xFFFF →
      LoadsByte (.ldaAbsX (wordOf hh ll)) s (cell s (wordOf hh ll + zext16 s.x)) 3) ∧
    (wordOf hh ll + zext16 s.x = 0xFFFF → AccessFaults (.ldaAbsX (wordOf hh ll)) s) ∧
    OperandMissing 0xBD s 0xFFFD ∧ OperandMissing 0xBD s 0xFFFE

/-- R116: LDA $hhll,Y. The opcode byte is PRESUMED by the spec (D8), log entry 4. -/
def Obligations.LdaAbsoluteYRule : Prop :=
  ∀ (ll hh : Byte) (s : State),
    encode (.ldaAbsY (wordOf hh ll)) = [0xB9, ll, hh] ∧
    (Instr.ldaAbsY (wordOf hh ll)).text = "LDA $" ++ (hexByte hh ++ hexByte ll) ++ ",Y" ∧
    StepIs (.ldaAbsY (wordOf hh ll)) s ∧
    (wordOf hh ll + zext16 s.y ≠ 0xFFFF →
      LoadsByte (.ldaAbsY (wordOf hh ll)) s (cell s (wordOf hh ll + zext16 s.y)) 3) ∧
    (wordOf hh ll + zext16 s.y = 0xFFFF → AccessFaults (.ldaAbsY (wordOf hh ll)) s) ∧
    OperandMissing 0xB9 s 0xFFFD ∧ OperandMissing 0xB9 s 0xFFFE

/-- R117: LDA ($nn,X). The opcode byte is PRESUMED by the spec (D8), log entry 4. -/
def Obligations.LdaIndirectXRule : Prop :=
  ∀ (n : Byte) (s : State),
    encode (.ldaIndX n) = [0xA1, n] ∧ (Instr.ldaIndX n).text = "LDA ($" ++ hexByte n ++ ",X)" ∧
    StepIs (.ldaIndX n) s ∧
    (zeroPagePointer s (n + s.x) ≠ 0xFFFF →
      LoadsByte (.ldaIndX n) s (cell s (zeroPagePointer s (n + s.x))) 2) ∧
    (zeroPagePointer s (n + s.x) = 0xFFFF → AccessFaults (.ldaIndX n) s) ∧ OperandMissing 0xA1 s 0xFFFE

/-- R118: LDA ($nn),Y. The opcode byte is PRESUMED by the spec (D8), log entry 4. -/
def Obligations.LdaIndirectYRule : Prop :=
  ∀ (n : Byte) (s : State),
    encode (.ldaIndY n) = [0xB1, n] ∧ (Instr.ldaIndY n).text = "LDA ($" ++ hexByte n ++ "),Y" ∧
    StepIs (.ldaIndY n) s ∧
    (zeroPagePointer s n + zext16 s.y ≠ 0xFFFF →
      LoadsByte (.ldaIndY n) s (cell s (zeroPagePointer s n + zext16 s.y)) 2) ∧
    (zeroPagePointer s n + zext16 s.y = 0xFFFF → AccessFaults (.ldaIndY n) s) ∧ OperandMissing 0xB1 s 0xFFFE

/-- R110, R29: the frame of LDA, all eight forms (ldaImm, ldaZp, ldaZpX, ldaAbs, ldaAbsX, ldaAbsY, ldaIndX, ldaIndY). -/
def Obligations.LdaFrame : Prop :=
  ∀ (i : Instr) (s t : State), i.mnemonic = .lda → exec i s = .next t →
    t.x = s.x ∧ t.y = s.y ∧ (∀ f : Flag, f ≠ .z → f ≠ .n → t.flag f = s.flag f) ∧
    SameSpares s t ∧
    t.runState = s.runState ∧ SameReads s t ∧ SameHost s t

/-! ## STA -/

/-- R121: STA $nn. The opcode byte is PRESUMED by the spec (D8), log entry 4. -/
def Obligations.StaZeroPageRule : Prop :=
  ∀ (n : Byte) (s : State),
    encode (.staZp n) = [0x85, n] ∧ (Instr.staZp n).text = "STA $" ++ hexByte n ∧
    StepIs (.staZp n) s ∧
    StoresAt (.staZp n) s (zext16 n) 2 ∧ OperandMissing 0x85 s 0xFFFE

/-- R122: STA $nn,X. The opcode byte is PRESUMED by the spec (D8), log entry 4. -/
def Obligations.StaZeroPageXRule : Prop :=
  ∀ (n : Byte) (s : State),
    encode (.staZpX n) = [0x95, n] ∧ (Instr.staZpX n).text = "STA $" ++ hexByte n ++ ",X" ∧
    StepIs (.staZpX n) s ∧
    StoresAt (.staZpX n) s (zext16 (n + s.x)) 2 ∧ OperandMissing 0x95 s 0xFFFE

/-- R123: STA $hhll. The opcode byte is PRESUMED by the spec (D8), log entry 4. -/
def Obligations.StaAbsoluteRule : Prop :=
  ∀ (ll hh : Byte) (s : State),
    encode (.staAbs (wordOf hh ll)) = [0x8D, ll, hh] ∧
    (Instr.staAbs (wordOf hh ll)).text = "STA $" ++ (hexByte hh ++ hexByte ll) ∧
    StepIs (.staAbs (wordOf hh ll)) s ∧
    (wordOf hh ll ≠ 0xFFFF → StoresAt (.staAbs (wordOf hh ll)) s (wordOf hh ll) 3) ∧
    (wordOf hh ll = 0xFFFF → AccessFaults (.staAbs (wordOf hh ll)) s) ∧
    OperandMissing 0x8D s 0xFFFD ∧ OperandMissing 0x8D s 0xFFFE

/-- R124: STA $hhll,X. The opcode byte is PRESUMED by the spec (D8), log entry 4. -/
def Obligations.StaAbsoluteXRule : Prop :=
  ∀ (ll hh : Byte) (s : State),
    encode (.staAbsX (wordOf hh ll)) = [0x9D, ll, hh] ∧
    (Instr.staAbsX (wordOf hh ll)).text = "STA $" ++ (hexByte hh ++ hexByte ll) ++ ",X" ∧
    StepIs (.staAbsX (wordOf hh ll)) s ∧
    (wordOf hh ll + zext16 s.x ≠ 0xFFFF → StoresAt (.staAbsX (wordOf hh ll)) s (wordOf hh ll + zext16 s.x) 3) ∧
    (wordOf hh ll + zext16 s.x = 0xFFFF → AccessFaults (.staAbsX (wordOf hh ll)) s) ∧
    OperandMissing 0x9D s 0xFFFD ∧ OperandMissing 0x9D s 0xFFFE

/-- R125: STA $hhll,Y. The opcode byte is PRESUMED by the spec (D8), log entry 4. -/
def Obligations.StaAbsoluteYRule : Prop :=
  ∀ (ll hh : Byte) (s : State),
    encode (.staAbsY (wordOf hh ll)) = [0x99, ll, hh] ∧
    (Instr.staAbsY (wordOf hh ll)).text = "STA $" ++ (hexByte hh ++ hexByte ll) ++ ",Y" ∧
    StepIs (.staAbsY (wordOf hh ll)) s ∧
    (wordOf hh ll + zext16 s.y ≠ 0xFFFF → StoresAt (.staAbsY (wordOf hh ll)) s (wordOf hh ll + zext16 s.y) 3) ∧
    (wordOf hh ll + zext16 s.y = 0xFFFF → AccessFaults (.staAbsY (wordOf hh ll)) s) ∧
    OperandMissing 0x99 s 0xFFFD ∧ OperandMissing 0x99 s 0xFFFE

/-- R126: STA ($nn,X). The opcode byte is PRESUMED by the spec (D8), log entry 4. -/
def Obligations.StaIndirectXRule : Prop :=
  ∀ (n : Byte) (s : State),
    encode (.staIndX n) = [0x81, n] ∧ (Instr.staIndX n).text = "STA ($" ++ hexByte n ++ ",X)" ∧
    StepIs (.staIndX n) s ∧
    (zeroPagePointer s (n + s.x) ≠ 0xFFFF → StoresAt (.staIndX n) s (zeroPagePointer s (n + s.x)) 2) ∧
    (zeroPagePointer s (n + s.x) = 0xFFFF → AccessFaults (.staIndX n) s) ∧ OperandMissing 0x81 s 0xFFFE

/-- R127: STA ($nn),Y. The opcode byte is PRESUMED by the spec (D8), log entry 4. -/
def Obligations.StaIndirectYRule : Prop :=
  ∀ (n : Byte) (s : State),
    encode (.staIndY n) = [0x91, n] ∧ (Instr.staIndY n).text = "STA ($" ++ hexByte n ++ "),Y" ∧
    StepIs (.staIndY n) s ∧
    (zeroPagePointer s n + zext16 s.y ≠ 0xFFFF → StoresAt (.staIndY n) s (zeroPagePointer s n + zext16 s.y) 2) ∧
    (zeroPagePointer s n + zext16 s.y = 0xFFFF → AccessFaults (.staIndY n) s) ∧ OperandMissing 0x91 s 0xFFFE

/-- R120, R29: the frame of STA, all seven forms (staZp, staZpX, staAbs, staAbsX, staAbsY, staIndX, staIndY): the one
cell written is at the address the meaning computes. -/
def Obligations.StaFrame : Prop :=
  ∀ (i : Instr) (s t : State), i.mnemonic = .sta → exec i s = .next t →
    t.a = s.a ∧ t.x = s.x ∧ t.y = s.y ∧ t.p = s.p ∧ t.runState = s.runState ∧ SameHost s t ∧
    ∀ ea, operandAddress i.operand s = .ok ea → SameReadsBut ea s t

/-! ## TAX, INX, BRK -/

/-- R140: TAX. -/
def Obligations.TaxRule : Prop :=
  ∀ s : State, encode .tax = [0xAA] ∧ Instr.tax.text = "TAX" ∧ StepIs .tax s ∧ PutsInX .tax s s.a

/-- R141: INX, modulo 256; Carry and Overflow are among the flags kept. -/
def Obligations.InxRule : Prop :=
  ∀ s : State, encode .inx = [0xE8] ∧ Instr.inx.text = "INX" ∧ StepIs .inx s ∧
    PutsInX .inx s (s.x + 1) ∧ (s.x = 0xFF → PutsInX .inx s 0x00)

/-- R140, R141, R29: the frame of TAX and INX. -/
def Obligations.TaxInxFrame : Prop :=
  ∀ (i : Instr) (s t : State), i = .tax ∨ i = .inx → exec i s = .next t →
    t.a = s.a ∧ t.y = s.y ∧ (∀ f : Flag, f ≠ .z → f ≠ .n → t.flag f = s.flag f) ∧
    SameSpares s t ∧
    t.runState = s.runState ∧ SameReads s t ∧ SameHost s t

/-- R150, R95: BRK halts with `PC` one past its opcode byte (90_conflicts.md C1) and changes nothing else; inside a run
the step at a BRK is that halt, at the top of memory too. -/
def Obligations.BrkRule : Prop :=
  ∀ s : State, encode .brk = [0x00] ∧ Instr.brk.text = "BRK" ∧
    ∃ t, exec .brk s = .next t ∧ t.runState = .halted ∧ t.pc = s.pc + 1 ∧
      t.a = s.a ∧ t.x = s.x ∧ t.y = s.y ∧ t.p = s.p ∧ SameReads s t ∧ SameHost s t ∧
      (s.runState = .running → memRead s s.pc = .ok 0x00 → step s = .next t)

/-! ## The step -/

/-- R92, R93: when the bytes at `PC` decode to an instruction, a step inside a run is that instruction's `exec`; the
step adds nothing around it. -/
def Obligations.StepRunsTheDecodedInstruction : Prop :=
  ∀ (s : State) (n : Nat) (i : Instr) (rest : List Byte), s.runState = .running →
    decode (s.mem.bytesFrom s.pc.toNat n) = .ok (i, rest) → s.pc.toNat + i.length ≤ Config.memSize →
    step s = exec i s

/-- R93, R98: a step of a run that completes has run an instruction whose bytes all stand at `PC`, and `PC` has
advanced by its length, without wrap. -/
def Obligations.PcAdvancesByTheLength : Prop :=
  ∀ s t : State, s.runState = .running → step s = .next t →
    ∃ i, BytesAt s s.pc.toNat (encode i) ∧ exec i s = .next t ∧
      t.pc.toNat = s.pc.toNat + i.length ∧ t.pc.toNat ≤ 0xFFFF

/-- R47, R160, R163, R164, R166: a step of a run ends in a next state or in one of two faults; the two other kinds
are unreachable here and nothing is refused. A fetch at 0xFFFF is out of range. -/
def Obligations.RunningStepOutcomes : Prop :=
  ∀ s : State, s.runState = .running →
    (s.pc = 0xFFFF → step s = .fault (.memoryOutOfRange 0xFFFF)) ∧
    ((∃ t, step s = .next t) ∨ step s = .fault (.memoryOutOfRange 0xFFFF) ∨
      ∃ b, memRead s s.pc = .ok b ∧ step s = .fault (.unrecognizedOpcode b s.pc))

/-- R152, R162, R166: for any value of EXTRA_OPCODES that R56 admits, a registered, unimplemented opcode faults, out of
range first where an operand byte its resolver reads has no cell. -/
def Obligations.UnimplementedOpcodesFault : Prop :=
  ∀ (extra : List Descriptor) (d : Descriptor) (s : State), extraWf opTable extra = true → d ∈ extra →
    s.runState = .running → memRead s s.pc = .ok d.code →
    (d.mode = .noneAddressing ∨ d.mode = .immediate ∨ s.pc.toNat + d.length ≤ 0xFFFF →
      stepWith extra s = .fault (.unimplementedInstruction d.code s.pc)) ∧
    (d.mode ≠ .noneAddressing → d.mode ≠ .immediate → 0xFFFF < s.pc.toNat + d.length →
      stepWith extra s = .fault (.memoryOutOfRange 0xFFFF))

/-- R24, R29: inside a run memory changes only by a store, at the one cell its operand addresses. -/
def Obligations.OnlyStoresWriteMemory : Prop :=
  ∀ s t : State, s.runState = .running → step s = .next t →
    SameReads s t ∨
    ∃ i ea, BytesAt s s.pc.toNat (encode i) ∧ i.mnemonic = .sta ∧ operandAddress i.operand s = .ok ea ∧
      memRead t ea = .ok s.a ∧ SameReadsBut ea s t

/-- R92: on every state of a run, and for every value of EXTRA_OPCODES that R56 admits, the machine's step is the
spec's `Step()` as transcribed in Machine/Reference.lean, in its outcome, its faults and their order (R97). -/
def Obligations.StepRefinesTheSpecsStep : Prop :=
  ∀ (extra : List Descriptor) (s : State), extraWf opTable extra = true → s.runState = .running →
    stepWith extra s = specStep extra s

/-- R98, R195: every run ends, in a halt or a fault, within 65,536 steps, whatever memory holds. It rests on `MEM_SIZE`
being 65,535 (D3), log entry 1. -/
def Obligations.EveryRunEnds : Prop :=
  ∀ s : State, s.runState = .running →
    (∃ t, runLoop 65536 s = .halted t ∧ t.runState = .halted) ∨ ∃ f, runLoop 65536 s = .faulted f

/-- R25, R90, R168: the transitions of RunState. A run is left only by a break (or a fault, which has no next state)
and entered only by `run` or `load_and_run`; nothing is defined on a faulted instance and no step answers one. -/
def Obligations.RunStateTransitions : Prop :=
  (∀ s : State, s.runState = .faulted → step s = .refused .faultedInstance) ∧
  ∀ s t : State, step s = .next t →
    t.runState ≠ .faulted ∧
    (s.runState = .running →
      (t.runState = .halted ↔ memRead s s.pc = .ok 0x00) ∧ (t.runState = .running ∨ t.runState = .halted)) ∧
    (HostMayAct s →
      (t.runState = .running ↔
        ∃ rest, s.calls = .run :: rest ∨ ∃ bytes, s.calls = .loadAndRun bytes :: rest) ∧
      (t.runState ≠ .running → t.runState = s.runState))

/-! ## The host -/

/-- R176: with no call to make, the core does nothing and all state survives. That the step then answers the state
itself is the model's choice, log entry 7. -/
def Obligations.HaltedCoreWaits : Prop :=
  ∀ s : State, HostMayAct s → s.calls = [] → step s = .next s

/-- R99, R183: `run()` begins a run at the current PC and changes nothing else. -/
def Obligations.RunCallRule : Prop :=
  ∀ (s : State) (rest : List HostCall), HostMayAct s → s.calls = .run :: rest →
    ∃ t, step s = .next t ∧ t.runState = .running ∧ SameRegisters s t ∧ SameReads s t ∧
      t.calls = rest ∧ t.seen = s.seen

/-- R184, R185: `mem_write` and `mem_write16`; outside the contract they are refused. -/
def Obligations.HostWriteRules : Prop :=
  (∀ (s : State) (addr : Word) (v : Byte) (rest : List HostCall), HostMayAct s → s.calls = .memWrite addr v :: rest →
    (addr = 0xFFFF → step s = .refused (.hostAddressOutOfContract addr)) ∧
    (addr ≠ 0xFFFF → ∃ t, step s = .next t ∧ memRead t addr = .ok v ∧ SameReadsBut addr s t ∧
      SameRegisters s t ∧ t.runState = s.runState ∧ t.calls = rest ∧ t.seen = s.seen)) ∧
  ∀ (s : State) (addr v : Word) (rest : List HostCall), HostMayAct s → s.calls = .memWrite16 addr v :: rest →
    (0xFFFE ≤ addr.toNat → step s = .refused (.hostAddressOutOfContract addr)) ∧
    (addr.toNat < 0xFFFE → ∃ t, step s = .next t ∧
      memRead t addr = .ok (v.extractLsb' 0 8) ∧ memRead t (addr + 1) = .ok (v.extractLsb' 8 8) ∧
      (∀ b : Word, b ≠ addr → b ≠ addr + 1 → memRead t b = memRead s b) ∧
      SameRegisters s t ∧ t.runState = s.runState ∧ t.calls = rest ∧ t.seen = s.seen)

/-- R186: `mem_read` gives the host the byte and changes nothing; at 0xFFFF it is refused. -/
def Obligations.HostReadRule : Prop :=
  ∀ (s : State) (addr : Word) (rest : List HostCall), HostMayAct s → s.calls = .memRead addr :: rest →
    (addr = 0xFFFF → step s = .refused (.hostAddressOutOfContract addr)) ∧
    (addr ≠ 0xFFFF → ∃ t, step s = .next t ∧ t.seen = cell s addr :: s.seen ∧ SameReads s t ∧
      SameRegisters s t ∧ t.runState = s.runState ∧ t.calls = rest)

/-- R45, R182, R193: `load_and_run` loads at 0x8000, writes the vector over the image, resets and starts the run; an
image of more than 32,767 bytes is refused. -/
def Obligations.LoadAndRunRule : Prop :=
  ∀ (s : State) (bytes : List Byte) (rest : List HostCall), HostMayAct s → s.calls = .loadAndRun bytes :: rest →
    (32767 < bytes.length → step s = .refused (.imageTooLong bytes.length)) ∧
    (bytes.length ≤ 32767 → ∃ t, step s = .next t ∧ t.runState = .running ∧
      t.a = 0x00 ∧ t.x = 0x00 ∧ t.p = Status.zero ∧ t.y = s.y ∧ t.pc = 0x8000 ∧
      memRead t 0xFFFC = .ok 0x00 ∧ memRead t 0xFFFD = .ok 0x80 ∧
      (∀ (k : Nat) (h : k < bytes.length), k ≠ 0x7FFC → k ≠ 0x7FFD →
        memRead t (BitVec.ofNat 16 (0x8000 + k)) = .ok bytes[k]) ∧
      (∀ addr : Word, addr ≠ 0xFFFC → addr ≠ 0xFFFD →
        addr.toNat < 0x8000 ∨ 0x8000 + bytes.length ≤ addr.toNat → memRead t addr = memRead s addr) ∧
      t.calls = rest ∧ t.seen = s.seen)

/-! ## What a claim may observe -/

/-- R22, R27, R196: what may be observed of a state decides what is observed at the end of its run, and whether it ends,
in a halt or in which fault: two runs from states that differ only in what no claim may see have one ending, so a run
meets a postcondition exactly when the other does. -/
def Obligations.ObservationDecidesTheEnding : Prop :=
  ∀ s t : State, s.runState = .running → t.runState = .running → observe s = observe t →
    (∀ n, (runLoop n s).ending = (runLoop n t).ending) ∧
    ∀ post : Postcondition, RunMeets s post ↔ RunMeets t post
end

