-- ==== Sys2Proof/Laws/Decode.lean ====
section
/-! SUPPORT. Byte order, and what the table lookup and the instruction builder can do. -/

namespace Sys2Proof

/-- A word is put together again from its two bytes (R36). -/
@[simp] theorem wordOf_high_low (a : Word) : wordOf (highByte a) (lowByte a) = a := by
  apply BitVec.eq_of_getLsbD_eq
  intro i hi
  simp only [wordOf, highByte, lowByte, BitVec.getLsbD_append, BitVec.getLsbD_extractLsb']
  by_cases h : i < 8
  · simp [h]
  · have : i - 8 < 8 := by omega
    simp [h, this, Nat.add_sub_cancel' (Nat.le_of_not_lt h)]

@[simp] theorem lowByte_wordOf (hi lo : Byte) : lowByte (wordOf hi lo) = lo := by
  apply BitVec.eq_of_getLsbD_eq
  intro i h
  simp only [wordOf, lowByte, BitVec.getLsbD_append, BitVec.getLsbD_extractLsb', h, decide_true, Bool.true_and]
  simp [h]

@[simp] theorem highByte_wordOf (hi lo : Byte) : highByte (wordOf hi lo) = hi := by
  apply BitVec.eq_of_getLsbD_eq
  intro i h
  simp only [wordOf, highByte, BitVec.getLsbD_append, BitVec.getLsbD_extractLsb', h, decide_true, Bool.true_and]
  simp

/-- R58: an implemented byte comes with its row of the table. -/
theorem lookup_implemented {extra : List Descriptor} {b : Byte} {d : Descriptor} (h : lookup extra b = .implemented d) :
    d ∈ opTable ∧ d.code = b := by
  unfold lookup at h
  split at h
  · rename_i d' hd
    cases h
    exact ⟨List.mem_of_find?_eq_some hd, by simpa using List.find?_some hd⟩
  · split at h <;> cases h

/-- R56: with no extra opcodes no byte is registered and unimplemented. -/
theorem lookup_extraTable (b : Byte) (d : Descriptor) : lookup extraTable b ≠ .unimplemented d := by
  unfold lookup
  split
  · simp
  · simp [findRow, extraTable, Config.extraOpcodes]

/-- Every row of the table and operand bytes of its length stand for an instruction, whose encoding they are (R54). -/
theorem buildInstr_row {d : Descriptor} (h : d ∈ opTable) (ops : List Byte) (hl : ops.length = d.length - 1) :
    ∃ i, buildInstr d.mnemonic d.mode ops = some i ∧ encode i = d.code :: ops ∧ i.length = d.length ∧
      i.mnemonic = d.mnemonic ∧ i.operand.mode = d.mode := by
  have h : d ∈ plainRows ++ (ldaRows ++ staRows) := by simpa [opTable] using h
  simp only [plainRows, ldaRows, staRows, List.cons_append, List.nil_append, List.mem_cons, List.not_mem_nil,
    or_false] at h
  rcases h with rfl | rfl | rfl | rfl | rfl | rfl | rfl | rfl | rfl | rfl | rfl | rfl | rfl | rfl | rfl | rfl | rfl | rfl <;>
  match ops, hl with
  | [], hl => first | exact ⟨_, rfl, rfl, rfl, rfl, rfl⟩ | simp at hl
  | [_], hl => first | exact ⟨_, rfl, rfl, rfl, rfl, rfl⟩ | simp at hl
  | [_, _], hl => first | exact ⟨_, rfl, by simp [encode], rfl, rfl, rfl⟩ | simp at hl
  | _ :: _ :: _ :: _, hl => simp at hl

end Sys2Proof
end

