-- ==== Sys2Proof/Laws/State.lean ====
section
/-! SUPPORT. What each register update leaves in each field of the state: one lemma per field per update. -/

namespace Sys2Proof.Machine

@[simp] theorem State.setA_a (s : State) (v : Byte) : (s.setA v).a = v := rfl
@[simp] theorem State.setA_x (s : State) (v : Byte) : (s.setA v).x = s.x := rfl
@[simp] theorem State.setA_y (s : State) (v : Byte) : (s.setA v).y = s.y := rfl
@[simp] theorem State.setA_pc (s : State) (v : Byte) : (s.setA v).pc = s.pc := rfl
@[simp] theorem State.setA_p (s : State) (v : Byte) : (s.setA v).p = s.p := rfl
@[simp] theorem State.setA_mem (s : State) (v : Byte) : (s.setA v).mem = s.mem := rfl
@[simp] theorem State.setA_runState (s : State) (v : Byte) : (s.setA v).runState = s.runState := rfl
@[simp] theorem State.setA_calls (s : State) (v : Byte) : (s.setA v).calls = s.calls := rfl
@[simp] theorem State.setA_seen (s : State) (v : Byte) : (s.setA v).seen = s.seen := rfl

@[simp] theorem State.setX_a (s : State) (v : Byte) : (s.setX v).a = s.a := rfl
@[simp] theorem State.setX_x (s : State) (v : Byte) : (s.setX v).x = v := rfl
@[simp] theorem State.setX_y (s : State) (v : Byte) : (s.setX v).y = s.y := rfl
@[simp] theorem State.setX_pc (s : State) (v : Byte) : (s.setX v).pc = s.pc := rfl
@[simp] theorem State.setX_p (s : State) (v : Byte) : (s.setX v).p = s.p := rfl
@[simp] theorem State.setX_mem (s : State) (v : Byte) : (s.setX v).mem = s.mem := rfl
@[simp] theorem State.setX_runState (s : State) (v : Byte) : (s.setX v).runState = s.runState := rfl
@[simp] theorem State.setX_calls (s : State) (v : Byte) : (s.setX v).calls = s.calls := rfl
@[simp] theorem State.setX_seen (s : State) (v : Byte) : (s.setX v).seen = s.seen := rfl

@[simp] theorem State.setP_a (s : State) (v : Status) : (s.setP v).a = s.a := rfl
@[simp] theorem State.setP_x (s : State) (v : Status) : (s.setP v).x = s.x := rfl
@[simp] theorem State.setP_y (s : State) (v : Status) : (s.setP v).y = s.y := rfl
@[simp] theorem State.setP_pc (s : State) (v : Status) : (s.setP v).pc = s.pc := rfl
@[simp] theorem State.setP_p (s : State) (v : Status) : (s.setP v).p = v := rfl
@[simp] theorem State.setP_mem (s : State) (v : Status) : (s.setP v).mem = s.mem := rfl
@[simp] theorem State.setP_runState (s : State) (v : Status) : (s.setP v).runState = s.runState := rfl
@[simp] theorem State.setP_calls (s : State) (v : Status) : (s.setP v).calls = s.calls := rfl
@[simp] theorem State.setP_seen (s : State) (v : Status) : (s.setP v).seen = s.seen := rfl

@[simp] theorem State.setPc_a (s : State) (v : Word) : (s.setPc v).a = s.a := rfl
@[simp] theorem State.setPc_x (s : State) (v : Word) : (s.setPc v).x = s.x := rfl
@[simp] theorem State.setPc_y (s : State) (v : Word) : (s.setPc v).y = s.y := rfl
@[simp] theorem State.setPc_pc (s : State) (v : Word) : (s.setPc v).pc = v := rfl
@[simp] theorem State.setPc_p (s : State) (v : Word) : (s.setPc v).p = s.p := rfl
@[simp] theorem State.setPc_mem (s : State) (v : Word) : (s.setPc v).mem = s.mem := rfl
@[simp] theorem State.setPc_runState (s : State) (v : Word) : (s.setPc v).runState = s.runState := rfl
@[simp] theorem State.setPc_calls (s : State) (v : Word) : (s.setPc v).calls = s.calls := rfl
@[simp] theorem State.setPc_seen (s : State) (v : Word) : (s.setPc v).seen = s.seen := rfl

@[simp] theorem State.setMem_a (s : State) (m : Memory) : (s.setMem m).a = s.a := rfl
@[simp] theorem State.setMem_x (s : State) (m : Memory) : (s.setMem m).x = s.x := rfl
@[simp] theorem State.setMem_y (s : State) (m : Memory) : (s.setMem m).y = s.y := rfl
@[simp] theorem State.setMem_pc (s : State) (m : Memory) : (s.setMem m).pc = s.pc := rfl
@[simp] theorem State.setMem_p (s : State) (m : Memory) : (s.setMem m).p = s.p := rfl
@[simp] theorem State.setMem_mem (s : State) (m : Memory) : (s.setMem m).mem = m := rfl
@[simp] theorem State.setMem_runState (s : State) (m : Memory) : (s.setMem m).runState = s.runState := rfl
@[simp] theorem State.setMem_calls (s : State) (m : Memory) : (s.setMem m).calls = s.calls := rfl
@[simp] theorem State.setMem_seen (s : State) (m : Memory) : (s.setMem m).seen = s.seen := rfl

@[simp] theorem State.setRunState_a (s : State) (r : RunState) : (s.setRunState r).a = s.a := rfl
@[simp] theorem State.setRunState_x (s : State) (r : RunState) : (s.setRunState r).x = s.x := rfl
@[simp] theorem State.setRunState_y (s : State) (r : RunState) : (s.setRunState r).y = s.y := rfl
@[simp] theorem State.setRunState_pc (s : State) (r : RunState) : (s.setRunState r).pc = s.pc := rfl
@[simp] theorem State.setRunState_p (s : State) (r : RunState) : (s.setRunState r).p = s.p := rfl
@[simp] theorem State.setRunState_mem (s : State) (r : RunState) : (s.setRunState r).mem = s.mem := rfl
@[simp] theorem State.setRunState_runState (s : State) (r : RunState) : (s.setRunState r).runState = r := rfl
@[simp] theorem State.setRunState_calls (s : State) (r : RunState) : (s.setRunState r).calls = s.calls := rfl
@[simp] theorem State.setRunState_seen (s : State) (r : RunState) : (s.setRunState r).seen = s.seen := rfl

@[simp] theorem State.setCalls_a (s : State) (cs : List HostCall) : (s.setCalls cs).a = s.a := rfl
@[simp] theorem State.setCalls_x (s : State) (cs : List HostCall) : (s.setCalls cs).x = s.x := rfl
@[simp] theorem State.setCalls_y (s : State) (cs : List HostCall) : (s.setCalls cs).y = s.y := rfl
@[simp] theorem State.setCalls_pc (s : State) (cs : List HostCall) : (s.setCalls cs).pc = s.pc := rfl
@[simp] theorem State.setCalls_p (s : State) (cs : List HostCall) : (s.setCalls cs).p = s.p := rfl
@[simp] theorem State.setCalls_mem (s : State) (cs : List HostCall) : (s.setCalls cs).mem = s.mem := rfl
@[simp] theorem State.setCalls_runState (s : State) (cs : List HostCall) : (s.setCalls cs).runState = s.runState := rfl
@[simp] theorem State.setCalls_calls (s : State) (cs : List HostCall) : (s.setCalls cs).calls = cs := rfl
@[simp] theorem State.setCalls_seen (s : State) (cs : List HostCall) : (s.setCalls cs).seen = s.seen := rfl

@[simp] theorem State.addSeen_a (s : State) (v : Byte) : (s.addSeen v).a = s.a := rfl
@[simp] theorem State.addSeen_x (s : State) (v : Byte) : (s.addSeen v).x = s.x := rfl
@[simp] theorem State.addSeen_y (s : State) (v : Byte) : (s.addSeen v).y = s.y := rfl
@[simp] theorem State.addSeen_pc (s : State) (v : Byte) : (s.addSeen v).pc = s.pc := rfl
@[simp] theorem State.addSeen_p (s : State) (v : Byte) : (s.addSeen v).p = s.p := rfl
@[simp] theorem State.addSeen_mem (s : State) (v : Byte) : (s.addSeen v).mem = s.mem := rfl
@[simp] theorem State.addSeen_runState (s : State) (v : Byte) : (s.addSeen v).runState = s.runState := rfl
@[simp] theorem State.addSeen_calls (s : State) (v : Byte) : (s.addSeen v).calls = s.calls := rfl
@[simp] theorem State.addSeen_seen (s : State) (v : Byte) : (s.addSeen v).seen = v :: s.seen := rfl

@[simp] theorem State.advance_a (s : State) (n : Nat) : (s.advance n).a = s.a := rfl
@[simp] theorem State.advance_x (s : State) (n : Nat) : (s.advance n).x = s.x := rfl
@[simp] theorem State.advance_y (s : State) (n : Nat) : (s.advance n).y = s.y := rfl
@[simp] theorem State.advance_pc (s : State) (n : Nat) : (s.advance n).pc = add16 s.pc (BitVec.ofNat 16 n) := rfl
@[simp] theorem State.advance_p (s : State) (n : Nat) : (s.advance n).p = s.p := rfl
@[simp] theorem State.advance_mem (s : State) (n : Nat) : (s.advance n).mem = s.mem := rfl
@[simp] theorem State.advance_runState (s : State) (n : Nat) : (s.advance n).runState = s.runState := rfl
@[simp] theorem State.advance_calls (s : State) (n : Nat) : (s.advance n).calls = s.calls := rfl
@[simp] theorem State.advance_seen (s : State) (n : Nat) : (s.advance n).seen = s.seen := rfl

@[simp] theorem State.halt_a (s : State) : (s.halt).a = s.a := rfl
@[simp] theorem State.halt_x (s : State) : (s.halt).x = s.x := rfl
@[simp] theorem State.halt_y (s : State) : (s.halt).y = s.y := rfl
@[simp] theorem State.halt_pc (s : State) : (s.halt).pc = s.pc := rfl
@[simp] theorem State.halt_p (s : State) : (s.halt).p = s.p := rfl
@[simp] theorem State.halt_mem (s : State) : (s.halt).mem = s.mem := rfl
@[simp] theorem State.halt_runState (s : State) : (s.halt).runState = .halted := rfl
@[simp] theorem State.halt_calls (s : State) : (s.halt).calls = s.calls := rfl
@[simp] theorem State.halt_seen (s : State) : (s.halt).seen = s.seen := rfl

end Sys2Proof.Machine
end

