-- ==== Sys2Proof/Laws/Flags.lean ====
section
/-! SUPPORT. What writing a flag, and `SetZN`, do to every bit of `P`, and that they do nothing else. -/

namespace Sys2Proof.Machine

@[simp] theorem Status.flag_setFlag (p : Status) (f g : Flag) (b : Bool) :
    (p.setFlag f b).flag g = if g = f then b else p.flag g := by
  cases f <;> cases g <;> rfl

@[simp] theorem Status.setFlag_spareHigh (p : Status) (f : Flag) (b : Bool) :
    (p.setFlag f b).spareHigh = p.spareHigh := by cases f <;> rfl

@[simp] theorem Status.setFlag_spareLow (p : Status) (f : Flag) (b : Bool) :
    (p.setFlag f b).spareLow = p.spareLow := by cases f <;> rfl

@[simp] theorem Status.flag_zero (f : Flag) : Status.zero.flag f = false := by cases f <;> rfl

/-- Two status registers with the same flags and the same two bits without a name are one. -/
theorem Status.ext_flags {p q : Status} (hf : ∀ f, p.flag f = q.flag f) (hh : p.spareHigh = q.spareHigh)
    (hl : p.spareLow = q.spareLow) : p = q := by
  have hn := hf .n; have hv := hf .v; have hd := hf .d; have hi := hf .i; have hz := hf .z; have hc := hf .c
  cases p; cases q
  simp_all [Status.flag]

@[simp] theorem State.setFlag_p (s : State) (f : Flag) (b : Bool) : (s.setFlag f b).p = s.p.setFlag f b := rfl

theorem State.flag_setFlag (s : State) (f g : Flag) (b : Bool) :
    (s.setFlag f b).flag g = if g = f then b else s.flag g := Status.flag_setFlag s.p f g b

/-- R23: a flag after `SetZN(v)`. -/
theorem State.flag_setZN (s : State) (v : Byte) (f : Flag) :
    (s.setZN v).flag f = if f = .n then v.getLsbD 7 else if f = .z then v == 0x00 else s.flag f := by
  rw [State.setZN, State.flag_setFlag, State.flag_setFlag]

/-- R15: a flag stands at its bit of the byte view. -/
theorem Status.toByte_bit (p : Status) (f : Flag) : p.toByte.getLsbD f.bit = p.flag f := by
  rcases p with ⟨n, v, h, l, d, i, z, c⟩
  cases f <;> revert n v h l d i z c <;> decide

/-- R15: the byte view loses nothing. -/
theorem Status.ofByte_toByte (p : Status) : Status.ofByte p.toByte = p := by
  rcases p with ⟨n, v, h, l, d, i, z, c⟩
  revert n v h l d i z c
  decide

theorem Status.toByte_ofByte (b : Byte) : (Status.ofByte b).toByte = b := by
  revert b
  decide

@[simp] theorem State.setFlag_a (s : State) (f : Flag) (b : Bool) : (s.setFlag f b).a = s.a := rfl
@[simp] theorem State.setFlag_x (s : State) (f : Flag) (b : Bool) : (s.setFlag f b).x = s.x := rfl
@[simp] theorem State.setFlag_y (s : State) (f : Flag) (b : Bool) : (s.setFlag f b).y = s.y := rfl
@[simp] theorem State.setFlag_pc (s : State) (f : Flag) (b : Bool) : (s.setFlag f b).pc = s.pc := rfl
@[simp] theorem State.setFlag_mem (s : State) (f : Flag) (b : Bool) : (s.setFlag f b).mem = s.mem := rfl
@[simp] theorem State.setFlag_runState (s : State) (f : Flag) (b : Bool) : (s.setFlag f b).runState = s.runState := rfl
@[simp] theorem State.setFlag_calls (s : State) (f : Flag) (b : Bool) : (s.setFlag f b).calls = s.calls := rfl
@[simp] theorem State.setFlag_seen (s : State) (f : Flag) (b : Bool) : (s.setFlag f b).seen = s.seen := rfl

@[simp] theorem State.setZN_spareHigh (s : State) (v : Byte) : (s.setZN v).p.spareHigh = s.p.spareHigh := rfl
@[simp] theorem State.setZN_spareLow (s : State) (v : Byte) : (s.setZN v).p.spareLow = s.p.spareLow := rfl
@[simp] theorem State.setZN_a (s : State) (v : Byte) : (s.setZN v).a = s.a := rfl
@[simp] theorem State.setZN_x (s : State) (v : Byte) : (s.setZN v).x = s.x := rfl
@[simp] theorem State.setZN_y (s : State) (v : Byte) : (s.setZN v).y = s.y := rfl
@[simp] theorem State.setZN_pc (s : State) (v : Byte) : (s.setZN v).pc = s.pc := rfl
@[simp] theorem State.setZN_mem (s : State) (v : Byte) : (s.setZN v).mem = s.mem := rfl
@[simp] theorem State.setZN_runState (s : State) (v : Byte) : (s.setZN v).runState = s.runState := rfl
@[simp] theorem State.setZN_calls (s : State) (v : Byte) : (s.setZN v).calls = s.calls := rfl
@[simp] theorem State.setZN_seen (s : State) (v : Byte) : (s.setZN v).seen = s.seen := rfl

end Sys2Proof.Machine
end

