-- ==== Sys2Proof/Laws/Memory.lean ====
section
/-! SUPPORT. Memory: a write followed by a read, the canonical form and who keeps it, and one lemma for each memory
primitive that says everything it can do. -/

namespace Sys2Proof.Machine

theorem cellExists_iff (a : Nat) : cellExists a = true ↔ a < 65535 := by
  exact decide_eq_true_iff

/-- With `MEM_SIZE` 65,535 the one 16-bit address without a cell is 0xFFFF (R33). -/
theorem cellExists_word (addr : Word) : cellExists addr.toNat = true ↔ addr ≠ 0xFFFF := by
  rw [cellExists_iff]
  constructor
  · rintro h rfl
    simp at h
  · intro h
    have hlt := addr.isLt
    rcases Nat.lt_or_ge addr.toNat 65535 with h' | h'
    · exact h'
    · exact absurd (BitVec.eq_of_toNat_eq (by simp; omega)) h

/-! ## Reading after writing -/

theorem Memory.get_filter_ne (m : Memory) {a b : Nat} (h : b ≠ a) :
    Memory.get (m.filter (fun c => c.1 != a)) b = m.get b := by
  induction m with
  | nil => rfl
  | cons c m ih =>
    obtain ⟨k, w⟩ := c
    by_cases hk : k = a
    · subst hk
      simp [Memory.get, Ne.symm h, ih]
    · simp [Memory.get, hk, ih]

theorem Memory.get_filter_self (m : Memory) (a : Nat) :
    Memory.get (m.filter (fun c => c.1 != a)) a = Memory.unlisted := by
  induction m with
  | nil => rfl
  | cons c m ih =>
    obtain ⟨k, w⟩ := c
    by_cases hk : k = a
    · subst hk
      simpa using ih
    · simpa [Memory.get, hk] using ih

theorem Memory.get_insert_self (m : Memory) (a : Nat) (v : Byte) : (Memory.insert m a v).get a = v := by
  induction m with
  | nil => simp [Memory.insert, Memory.get]
  | cons c m ih =>
    obtain ⟨k, w⟩ := c
    by_cases hk : k < a
    · simp [Memory.insert, Memory.get, hk, Nat.ne_of_lt hk, ih]
    · simp [Memory.insert, Memory.get, hk]

theorem Memory.get_insert_other (m : Memory) {a b : Nat} (v : Byte) (h : b ≠ a) :
    (Memory.insert m a v).get b = m.get b := by
  induction m with
  | nil => simp [Memory.insert, Memory.get, Ne.symm h]
  | cons c m ih =>
    obtain ⟨k, w⟩ := c
    by_cases hk : k < a
    · simp [Memory.insert, Memory.get, hk, ih]
    · simp [Memory.insert, Memory.get, hk, Ne.symm h]

@[simp] theorem Memory.get_set_self (m : Memory) (a : Nat) (v : Byte) : (m.set a v).get a = v := by
  by_cases hv : v = Memory.unlisted
  · simp [Memory.set, hv, Memory.get_filter_self]
  · simp [Memory.set, hv, Memory.get_insert_self]

theorem Memory.get_set_other (m : Memory) {a b : Nat} (v : Byte) (h : b ≠ a) : (m.set a v).get b = m.get b := by
  by_cases hv : v = Memory.unlisted
  · simp [Memory.set, hv, Memory.get_filter_ne m h]
  · simp [Memory.set, hv, Memory.get_insert_other _ v h, Memory.get_filter_ne m h]

/-- A copy leaves every address below its first one alone. -/
theorem Memory.get_copy_below (m : Memory) (a b : Nat) (bs : List Byte) (h : b < a) : (m.copy a bs).get b = m.get b := by
  induction bs generalizing m a with
  | nil => rfl
  | cons v bs ih => rw [Memory.copy, ih _ _ (by omega), Memory.get_set_other _ _ (by omega)]

/-- A copied byte is read back (R45). -/
theorem Memory.get_copy_inside (m : Memory) (a i : Nat) (bs : List Byte) (h : i < bs.length) :
    (m.copy a bs).get (a + i) = bs[i] := by
  induction bs generalizing m a i with
  | nil => simp at h
  | cons v bs ih =>
    cases i with
    | zero => simp [Memory.copy, Memory.get_copy_below]
    | succ i =>
      have := ih (m.set a v) (a + 1) i (by simpa using h)
      simpa [Memory.copy, Nat.add_assoc, Nat.add_comm 1 i] using this

/-- A copy leaves every address past its last one alone. -/
theorem Memory.get_copy_above (m : Memory) (a b : Nat) (bs : List Byte) (h : a + bs.length ≤ b) :
    (m.copy a bs).get b = m.get b := by
  induction bs generalizing m a with
  | nil => rfl
  | cons v bs ih =>
    simp only [List.length_cons] at h
    rw [Memory.copy, ih _ _ (by omega), Memory.get_set_other _ _ (by omega)]

/-! ## The canonical form -/

theorem Memory.wf_nil : Memory.wf [] := by simp [Memory.wf]

theorem Memory.wf_filter {m : Memory} (h : m.wf) (a : Nat) : Memory.wf (m.filter (fun c => c.1 != a)) :=
  ⟨h.1.filter _, fun c hc => h.2 c (List.mem_filter.1 hc).1⟩

theorem Memory.mem_insert {m : Memory} {a : Nat} {v : Byte} {c : Host.Cell} (h : c ∈ Memory.insert m a v) :
    c = (a, v) ∨ c ∈ m := by
  induction m with
  | nil => simpa [Memory.insert] using h
  | cons d m ih =>
    obtain ⟨k, w⟩ := d
    by_cases hk : k < a
    · simp only [Memory.insert, hk, if_true, List.mem_cons] at h ⊢
      rcases h with h | h
      · exact .inr (.inl h)
      · rcases ih h with h | h
        · exact .inl h
        · exact .inr (.inr h)
    · simpa [Memory.insert, hk] using h

theorem Memory.wf_insert {m : Memory} {a : Nat} {v : Byte} (h : m.wf) (ha : ∀ c ∈ m, c.1 ≠ a)
    (hv : v ≠ 0) (hx : cellExists a = true) : (Memory.insert m a v).wf := by
  refine ⟨?_, fun c hc => ?_⟩
  · induction m with
    | nil => simp [Memory.insert]
    | cons d m ih =>
      obtain ⟨k, w⟩ := d
      have hp := List.pairwise_cons.1 h.1
      by_cases hk : k < a
      · simp only [Memory.insert, hk, if_true, List.pairwise_cons]
        refine ⟨fun c hc => ?_, ih ⟨hp.2, fun c hc => h.2 c (.tail _ hc)⟩ fun c hc => ha c (.tail _ hc)⟩
        rcases Memory.mem_insert hc with rfl | hc
        · exact hk
        · exact hp.1 c hc
      · have hka : a < k := by
          have := ha (k, w) (.head _)
          simp only at this
          omega
        simp only [Memory.insert, hk, if_false, List.pairwise_cons]
        refine ⟨fun c hc => ?_, hp⟩
        rcases List.mem_cons.1 hc with rfl | hc
        · exact hka
        · exact Nat.lt_trans hka (hp.1 c hc)
  · rcases Memory.mem_insert hc with rfl | hc
    · exact ⟨hv, hx⟩
    · exact h.2 c hc

/-- A write to a cell that exists keeps the canonical form. -/
theorem Memory.wf_set {m : Memory} (h : m.wf) {a : Nat} (v : Byte) (hx : cellExists a = true) : (m.set a v).wf := by
  have hf := Memory.wf_filter h a
  by_cases hv : v = Memory.unlisted
  · simpa [Memory.set, hv] using hf
  · simp only [Memory.set, hv, if_false]
    refine Memory.wf_insert hf (fun c hc => ?_) hv hx
    simpa using (List.mem_filter.1 hc).2

/-- A copy that fits keeps the canonical form. -/
theorem Memory.wf_copy {m : Memory} (h : m.wf) (a : Nat) (bs : List Byte) (hx : a + bs.length ≤ Config.memSize) :
    (m.copy a bs).wf := by
  induction bs generalizing m a with
  | nil => exact h
  | cons v bs ih =>
    simp only [List.length_cons] at hx
    exact ih (Memory.wf_set h v (by simp [cellExists]; omega)) _ (by omega)

theorem Memory.get_of_below {m : Memory} {a : Nat} (h : ∀ c ∈ m, a < c.1) : m.get a = Memory.unlisted := by
  induction m with
  | nil => rfl
  | cons c m ih =>
    obtain ⟨k, w⟩ := c
    have hk : a < k := h (k, w) (.head _)
    simp [Memory.get, Nat.ne_of_gt hk, ih fun c hc => h c (.tail _ hc)]

/-- In the canonical form equal readings are equal data. -/
theorem Memory.eq_of_get {m n : Memory} (hm : m.wf) (hn : n.wf) (h : ∀ a, m.get a = n.get a) : m = n := by
  induction m generalizing n with
  | nil =>
    cases n with
    | nil => rfl
    | cons d n =>
      obtain ⟨k, w⟩ := d
      have := h k
      simp only [Memory.get, if_true] at this
      exact absurd this.symm (hn.2 (k, w) (.head _)).1
  | cons c m ih =>
    obtain ⟨k, w⟩ := c
    have hw := (hm.2 (k, w) (.head _)).1
    have hpm := List.pairwise_cons.1 hm.1
    cases n with
    | nil =>
      have := h k
      simp only [Memory.get, if_true] at this
      exact absurd this hw
    | cons d n =>
      obtain ⟨l, u⟩ := d
      have hu := (hn.2 (l, u) (.head _)).1
      have hpn := List.pairwise_cons.1 hn.1
      have hkl : k = l := by
        rcases Nat.lt_trichotomy k l with hlt | heq | hgt
        · have hz : Memory.get ((l, u) :: n) k = Memory.unlisted :=
            Memory.get_of_below fun c hc => by
              rcases List.mem_cons.1 hc with rfl | hc
              · exact hlt
              · exact Nat.lt_trans hlt (hpn.1 c hc)
          have := h k
          rw [hz] at this
          simp only [Memory.get, if_true] at this
          exact absurd this hw
        · exact heq
        · have hz : Memory.get ((k, w) :: m) l = Memory.unlisted :=
            Memory.get_of_below fun c hc => by
              rcases List.mem_cons.1 hc with rfl | hc
              · exact hgt
              · exact Nat.lt_trans hgt (hpm.1 c hc)
          have := h l
          rw [hz] at this
          simp only [Memory.get, if_true] at this
          exact absurd this.symm hu
      subst hkl
      have hwu : w = u := by simpa [Memory.get] using h k
      subst hwu
      congr 1
      refine ih ⟨hpm.2, fun c hc => hm.2 c (.tail _ hc)⟩ ⟨hpn.2, fun c hc => hn.2 c (.tail _ hc)⟩ fun a => ?_
      by_cases ha : a = k
      · subst ha
        rw [Memory.get_of_below fun c hc => hpm.1 c hc, Memory.get_of_below fun c hc => hpn.1 c hc]
      · have := h a
        simpa [Memory.get, Ne.symm ha] using this

/-! ## The memory primitives -/

/-- R31, R33: everything a byte read can do. -/
theorem memRead_eq (s : State) (addr : Word) :
    memRead s addr = if addr = 0xFFFF then .error (.memoryOutOfRange 0xFFFF) else .ok (s.mem.get addr.toNat) := by
  by_cases h : addr = 0xFFFF
  · subst h
    rfl
  · rw [memRead, if_pos ((cellExists_word addr).2 h), if_neg h]

/-- R32, R33: everything a byte write can do. -/
theorem memWrite_eq (s : State) (addr : Word) (v : Byte) :
    memWrite s addr v = if addr = 0xFFFF then .error (.memoryOutOfRange 0xFFFF)
      else .ok (s.setMem (s.mem.set addr.toNat v)) := by
  by_cases h : addr = 0xFFFF
  · subst h
    rfl
  · rw [memWrite, if_pos ((cellExists_word addr).2 h), if_neg h]

/-- A read depends on memory alone. -/
theorem memRead_congr {s t : State} (h : t.mem = s.mem) (addr : Word) : memRead t addr = memRead s addr := by
  simp [memRead, h]

/-- A zero-page cell always exists. -/
theorem memRead_zext (s : State) (n : Byte) : memRead s (zext16 n) = .ok (s.mem.get n.toNat) := by
  have h : (zext16 n).toNat = n.toNat := by
    simp only [zext16, BitVec.toNat_setWidth]
    omega
  have hn : cellExists n.toNat = true := by
    rw [cellExists_iff]
    have := n.isLt
    omega
  simp [memRead, h, hn]

/-- What a completed byte write leaves: the written cell, and every other cell as before (R32). -/
theorem memWrite_ok {s t : State} {addr : Word} {v : Byte} (h : memWrite s addr v = .ok t) :
    t = s.setMem (s.mem.set addr.toNat v) ∧ addr ≠ 0xFFFF := by
  rw [memWrite_eq] at h
  split at h
  · cases h
  · exact ⟨(Except.ok.inj h).symm, ‹_›⟩

theorem memRead_set_self (s : State) {addr : Word} (v : Byte) (h : addr ≠ 0xFFFF) :
    memRead (s.setMem (s.mem.set addr.toNat v)) addr = .ok v := by
  rw [memRead_eq, if_neg h, State.setMem_mem, Memory.get_set_self]

theorem memRead_set_other (s : State) {addr b : Word} (v : Byte) (h : b ≠ addr) :
    memRead (s.setMem (s.mem.set addr.toNat v)) b = memRead s b := by
  have hn : b.toNat ≠ addr.toNat := fun e => h (BitVec.eq_of_toNat_eq e)
  simp [memRead_eq, Memory.get_set_other _ _ hn]

end Sys2Proof.Machine
end

