-- ==== Sys2Proof/Laws/Operands.lean ====
section
/-! SUPPORT. One lemma for each shared operand operation: the zero-page pointer, the effective address, the value. -/

namespace Sys2Proof.Machine

/-- R78, R79: a pointer read never faults, since both of its bytes are in the zero page. -/
theorem pointerAt_eq (s : State) (ptr : Byte) :
    pointerAt s ptr = .ok (wordOf (s.mem.get (add8 ptr 1).toNat) (s.mem.get ptr.toNat)) := by
  simp [pointerAt, memRead_zext]

/-- R82: every operand but the missing one has an effective address. -/
theorem operandAddress_total (o : Operand) (s : State) :
    (o = .noneAddressing ∧ operandAddress o s = .error .invalidAddressingMode) ∨ ∃ ea, operandAddress o s = .ok ea := by
  cases o <;> simp [operandAddress, pointerAt_eq]

/-- The effective address depends on `PC`, `X`, `Y` and memory alone (R82). -/
theorem operandAddress_congr {s t : State} (hpc : t.pc = s.pc) (hx : t.x = s.x) (hy : t.y = s.y) (hm : t.mem = s.mem)
    (o : Operand) : operandAddress o t = operandAddress o s := by
  cases o <;> simp [operandAddress, pointerAt_eq, hpc, hx, hy, hm]

/-- What a load reads: the immediate byte, or the byte at the effective address (R110). -/
theorem operandValue_ok {o : Operand} {s : State} {v : Byte} (h : operandValue o s = .ok v) :
    o = .immediate v ∨ ∃ ea, operandAddress o s = .ok ea ∧ memRead s ea = .ok v := by
  unfold operandValue at h
  split at h
  · exact .inl (by rw [Except.ok.inj h])
  · split at h
    · cases h
    · exact .inr ⟨_, ‹_›, h⟩

/-- A load's value depends on `X`, `Y` and memory alone. -/
theorem operandValue_congr {s t : State} (hx : t.x = s.x) (hy : t.y = s.y) (hm : t.mem = s.mem)
    (o : Operand) : operandValue o t = operandValue o s := by
  cases o <;> simp [operandValue, operandAddress, pointerAt_eq, memRead_eq, hx, hy, hm]

end Sys2Proof.Machine
end

