-- ==== Sys2Proof/Laws/Exec.lean ====
section
/-! SUPPORT. What the shared meanings can do, and what an executed instruction can do: one inversion lemma each. -/

namespace Sys2Proof.Machine

/-- Everything a load that completes does (R110). -/
theorem load_next {o : Operand} {s t : State} (h : load o s = .next t) :
    ∃ v, operandValue o s = .ok v ∧ t = ((s.setA v).setZN v).advance o.length := by
  unfold load at h
  split at h
  · cases h
  · exact ⟨_, ‹_›, (Host.Outcome.next.inj h).symm⟩

/-- Everything a store that completes does (R120). -/
theorem store_next {o : Operand} {s t : State} (h : store o s = .next t) :
    ∃ ea, operandAddress o s = .ok ea ∧ ea ≠ 0xFFFF ∧
      t = (s.setMem (s.mem.set ea.toNat s.a)).advance o.length := by
  unfold store at h
  split at h
  · cases h
  · split at h
    · cases h
    · obtain ⟨rfl, hea⟩ := memWrite_ok ‹_›
      exact ⟨_, ‹_›, hea, (Host.Outcome.next.inj h).symm⟩

/-- `exec` is a load, a store, a value into `X`, or the halt. -/
theorem exec_shape (i : Instr) (s : State) :
    (i.mnemonic = .lda ∧ exec i s = load i.operand s) ∨
    (i.mnemonic = .sta ∧ exec i s = store i.operand s) ∨
    (i = .tax ∧ exec i s = intoX s.a s) ∨
    (i = .inx ∧ exec i s = intoX (add8 s.x 1) s) ∨
    (i = .brk ∧ exec i s = .next ((s.advance 1).halt)) := by
  cases i
  case brk => exact .inr (.inr (.inr (.inr ⟨rfl, rfl⟩)))
  case tax => exact .inr (.inr (.inl ⟨rfl, rfl⟩))
  case inx => exact .inr (.inr (.inr (.inl ⟨rfl, rfl⟩)))
  all_goals first | exact .inl ⟨rfl, rfl⟩ | exact .inr (.inl ⟨rfl, rfl⟩)

/-- Everything an instruction that completes does: each of the five effects, with the state it leaves. -/
theorem exec_next {i : Instr} {s t : State} (h : exec i s = .next t) :
    (i.mnemonic = .lda ∧ ∃ v, operandValue i.operand s = .ok v ∧ t = ((s.setA v).setZN v).advance i.length) ∨
    (i.mnemonic = .sta ∧ ∃ ea, operandAddress i.operand s = .ok ea ∧ ea ≠ 0xFFFF ∧
      t = (s.setMem (s.mem.set ea.toNat s.a)).advance i.length) ∨
    (i = .tax ∧ t = ((s.setX s.a).setZN s.a).advance 1) ∨
    (i = .inx ∧ t = ((s.setX (add8 s.x 1)).setZN (add8 s.x 1)).advance 1) ∨
    (i = .brk ∧ t = (s.advance 1).halt) := by
  rcases exec_shape i s with ⟨hm, he⟩ | ⟨hm, he⟩ | ⟨hi, he⟩ | ⟨hi, he⟩ | ⟨hi, he⟩ <;> rw [he] at h
  · exact .inl ⟨hm, load_next h⟩
  · exact .inr (.inl ⟨hm, store_next h⟩)
  · exact .inr (.inr (.inl ⟨hi, (Host.Outcome.next.inj h).symm⟩))
  · exact .inr (.inr (.inr (.inl ⟨hi, (Host.Outcome.next.inj h).symm⟩)))
  · exact .inr (.inr (.inr (.inr ⟨hi, (Host.Outcome.next.inj h).symm⟩)))

/-- `exec` never refuses. -/
theorem exec_not_refused (i : Instr) (s : State) (r : Refusal) : exec i s ≠ .refused r := by
  intro h
  rcases exec_shape i s with ⟨-, he⟩ | ⟨-, he⟩ | ⟨-, he⟩ | ⟨-, he⟩ | ⟨-, he⟩ <;> rw [he] at h
  · unfold load at h
    split at h <;> cases h
  · unfold store at h
    split at h
    · cases h
    · split at h <;> cases h
  all_goals cases h

/-- A byte read faults at 0xFFFF alone. -/
theorem memRead_error {s : State} {addr : Word} {f : Fault} (h : memRead s addr = .error f) :
    addr = 0xFFFF ∧ f = .memoryOutOfRange 0xFFFF := by
  rw [memRead_eq] at h
  split at h
  · exact ⟨‹_›, (Except.error.inj h).symm⟩
  · cases h

/-- A byte write faults at 0xFFFF alone. -/
theorem memWrite_error {s : State} {addr : Word} {v : Byte} {f : Fault} (h : memWrite s addr v = .error f) :
    addr = 0xFFFF ∧ f = .memoryOutOfRange 0xFFFF := by
  rw [memWrite_eq] at h
  split at h
  · exact ⟨‹_›, (Except.error.inj h).symm⟩
  · cases h

/-- An instruction with a handler for memory has an operand (R54). -/
theorem operand_of_memory {i : Instr} (h : i.mnemonic = .lda ∨ i.mnemonic = .sta) :
    i.operand ≠ .noneAddressing := by
  cases i <;> simp [Instr.mnemonic, Instr.operand] at h ⊢

/-- An executed instruction faults only at its data access, at 0xFFFF (R97, R164). -/
theorem exec_fault {i : Instr} {s : State} {f : Fault} (h : exec i s = .fault f) :
    f = .memoryOutOfRange 0xFFFF ∧ (i.mnemonic = .lda ∨ i.mnemonic = .sta) ∧
      operandAddress i.operand s = .ok 0xFFFF := by
  rcases exec_shape i s with ⟨hm, he⟩ | ⟨hm, he⟩ | ⟨-, he⟩ | ⟨-, he⟩ | ⟨-, he⟩ <;> rw [he] at h
  · obtain ⟨ea, hea⟩ := (operandAddress_total i.operand s).resolve_left
      fun h => operand_of_memory (.inl hm) h.1
    unfold load at h
    split at h
    · rename_i g hg
      cases h
      unfold operandValue at hg
      split at hg
      · cases hg
      · rw [hea] at hg
        obtain ⟨rfl, rfl⟩ := memRead_error hg
        exact ⟨rfl, .inl hm, hea⟩
    · cases h
  · obtain ⟨ea, hea⟩ := (operandAddress_total i.operand s).resolve_left
      fun h => operand_of_memory (.inr hm) h.1
    rw [store, hea] at h
    simp only at h
    split at h
    · rename_i g hg
      cases h
      obtain ⟨rfl, rfl⟩ := memWrite_error hg
      exact ⟨rfl, .inr hm, hea⟩
    · cases h
  all_goals cases h

end Sys2Proof.Machine
end

