-- ==== Sys2Proof/Laws/Fetch.lean ====
section
/-! SUPPORT. What reading consecutive bytes and fetching an instruction can do. -/

namespace Sys2Proof.Machine

/-- Bytes that all have a cell are read as they stand. -/
theorem fetchBytes_ok (s : State) (addr : Word) (n : Nat) (h : addr.toNat + n ≤ Config.memSize) :
    fetchBytes s addr n = .ok (s.mem.bytesFrom addr.toNat n) := by
  induction n generalizing addr with
  | zero => rfl
  | succ n ih =>
    have hm : Config.memSize = 65535 := rfl
    have hx : cellExists addr.toNat = true := by rw [cellExists_iff]; omega
    have hn : (add16 addr 1).toNat = addr.toNat + 1 := by
      have : (1 : Word).toNat = 1 := rfl
      rw [add16, BitVec.toNat_add, this]
      omega
    have hr : memRead s addr = .ok (s.mem.get addr.toNat) := by rw [memRead, if_pos hx]
    simp only [fetchBytes, Memory.bytesFrom, hr, ih (add16 addr 1) (by omega), hn]

/-- Bytes that run into the address without a cell fault there (R164). -/
theorem fetchBytes_error (s : State) (addr : Word) (n : Nat) (h : Config.memSize < addr.toNat + n) :
    n = 0 ∨ fetchBytes s addr n = .error (.memoryOutOfRange 0xFFFF) := by
  induction n generalizing addr with
  | zero => exact .inl rfl
  | succ n ih =>
    refine .inr ?_
    have hm : Config.memSize = 65535 := rfl
    by_cases ha : addr = 0xFFFF
    · subst ha
      rw [fetchBytes, memRead_eq, if_pos rfl]
    · have hlt := (cellExists_iff _).1 ((cellExists_word addr).2 ha)
      have hn : (add16 addr 1).toNat = addr.toNat + 1 := by
        have : (1 : Word).toNat = 1 := rfl
        rw [add16, BitVec.toNat_add, this]
        omega
      rcases ih (add16 addr 1) (by omega) with rfl | he
      · omega
      · rw [fetchBytes, memRead_eq, if_neg ha]
        simp only [he]

/-- Everything a fetch that completes has done: a byte of the table, its operand bytes, and what they decode to. -/
theorem fetchInstr_ok {extra : List Descriptor} {s : State} {i : Instr} (h : fetchInstr extra s = .ok i) :
    ∃ b d ops rest, memRead s s.pc = .ok b ∧ lookup extra b = .implemented d ∧
      fetchBytes s (add16 s.pc 1) (d.length - 1) = .ok ops ∧ decodeWith extra (b :: ops) = .ok (i, rest) := by
  unfold fetchInstr at h
  split at h
  · cases h
  · split at h
    · cases h
    · cases h
    · split at h
      · cases h
      · split at h
        · cases h
          exact ⟨_, _, _, _, ‹_›, ‹_›, ‹_›, ‹_›⟩
        · cases h

theorem Memory.bytesFrom_length (m : Memory) (a n : Nat) : (m.bytesFrom a n).length = n := by
  induction n generalizing a with
  | zero => rfl
  | succ n ih => simp [Memory.bytesFrom, ih]

/-- Everything a fetch can do once its opcode byte is read (R92 lines 3 to 6, R97): an unrecognised byte, an
unimplemented one, an operand byte without a cell, or the instruction whose encoding stands at `PC`. -/
theorem fetchInstr_cases {s : State} {b : Byte} (hr : memRead s s.pc = .ok b) (extra : List Descriptor) :
    (lookup extra b = .unrecognised ∧ fetchInstr extra s = .error (.unrecognizedOpcode b s.pc)) ∨
    (∃ d, lookup extra b = .unimplemented d ∧ fetchInstr extra s = .error (unimplementedFault d b s)) ∨
    (∃ d, lookup extra b = .implemented d ∧
      (65535 < s.pc.toNat + d.length ∧ fetchInstr extra s = .error (.memoryOutOfRange 0xFFFF) ∨
       s.pc.toNat + d.length ≤ 65535 ∧ ∃ i, fetchInstr extra s = .ok i ∧
        encode i = s.mem.bytesFrom s.pc.toNat d.length ∧ i.length = d.length ∧ i.mnemonic = d.mnemonic ∧
        i.operand.mode = d.mode)) := by
  unfold fetchInstr
  rw [hr]
  simp only
  cases hl : lookup extra b with
  | unrecognised => simp
  | unimplemented d => simp
  | implemented d =>
    obtain ⟨hm, hc⟩ := lookup_implemented hl
    have hdl : 1 ≤ d.length := (by decide : ∀ e ∈ opTable, 1 ≤ e.length) d hm
    have hpc : s.pc ≠ 0xFFFF := by
      intro h
      rw [memRead_eq, if_pos h] at hr
      cases hr
    have hlt := (cellExists_iff _).1 ((cellExists_word _).2 hpc)
    have hn : (add16 s.pc 1).toNat = s.pc.toNat + 1 := by
      have : (1 : Word).toNat = 1 := rfl
      rw [add16, BitVec.toNat_add, this]
      omega
    refine .inr (.inr ⟨d, rfl, ?_⟩)
    by_cases hfit : s.pc.toNat + d.length ≤ 65535
    · refine .inr ⟨hfit, ?_⟩
      have hb := fetchBytes_ok s (add16 s.pc 1) (d.length - 1) (by rw [hn]; change _ ≤ 65535; omega)
      obtain ⟨i, hi, he, hlen, hmn, hmo⟩ :=
        buildInstr_row hm (s.mem.bytesFrom (add16 s.pc 1).toNat (d.length - 1)) (Memory.bytesFrom_length ..)
      have hd : ∀ ops : List Byte, ops.length = d.length - 1 → buildInstr d.mnemonic d.mode ops = some i →
          decodeWith extra (b :: ops) = .ok (i, []) := fun ops hlen hops => by
        simp [decodeWith, hl, ← hlen, hops]
      simp only [hb, hd _ (Memory.bytesFrom_length ..) hi]
      refine ⟨i, rfl, ?_, hlen, hmn, hmo⟩
      rw [memRead_eq, if_neg hpc] at hr
      obtain ⟨k, hk⟩ : ∃ k, d.length = k + 1 := ⟨d.length - 1, by omega⟩
      rw [he, hc, hn, hk, ← Except.ok.inj hr]
      rfl
    · refine .inl ⟨by omega, ?_⟩
      rcases fetchBytes_error s (add16 s.pc 1) (d.length - 1) (by rw [hn]; change 65535 < _; omega) with h0 | he
      · omega
      · simp only [he]

end Sys2Proof.Machine
end

