-- ==== Sys2Proof/Laws/PerInstr.lean ====
section
/-! SUPPORT. Statements about every instruction as syntax, one lemma per constructor. -/

namespace Sys2Proof.Laws

/-- An instruction agrees with the table (R54, R61): its encoding is as long as it says, and its opcode byte looks up
a well-formed row of its mnemonic, mode and length. -/
def TableRow.Statement (i : Instr) : Prop :=
  (encode i).length = i.length ∧
  ∃ d, (encode i).head?.map (lookup extraTable) = some (.implemented d) ∧
    d.wf = true ∧ d.mnemonic = i.mnemonic ∧ d.mode = i.operand.mode ∧ d.length = i.length

theorem TableRow.brk : TableRow.Statement .brk := ⟨rfl, _, rfl, rfl, rfl, rfl, rfl⟩
theorem TableRow.ldaImm (n : Byte) : TableRow.Statement (.ldaImm n) := ⟨rfl, _, rfl, rfl, rfl, rfl, rfl⟩
theorem TableRow.ldaZp (n : Byte) : TableRow.Statement (.ldaZp n) := ⟨rfl, _, rfl, rfl, rfl, rfl, rfl⟩
theorem TableRow.ldaZpX (n : Byte) : TableRow.Statement (.ldaZpX n) := ⟨rfl, _, rfl, rfl, rfl, rfl, rfl⟩
theorem TableRow.ldaAbs (a : Word) : TableRow.Statement (.ldaAbs a) := ⟨rfl, _, rfl, rfl, rfl, rfl, rfl⟩
theorem TableRow.ldaAbsX (a : Word) : TableRow.Statement (.ldaAbsX a) := ⟨rfl, _, rfl, rfl, rfl, rfl, rfl⟩
theorem TableRow.ldaAbsY (a : Word) : TableRow.Statement (.ldaAbsY a) := ⟨rfl, _, rfl, rfl, rfl, rfl, rfl⟩
theorem TableRow.ldaIndX (n : Byte) : TableRow.Statement (.ldaIndX n) := ⟨rfl, _, rfl, rfl, rfl, rfl, rfl⟩
theorem TableRow.ldaIndY (n : Byte) : TableRow.Statement (.ldaIndY n) := ⟨rfl, _, rfl, rfl, rfl, rfl, rfl⟩
theorem TableRow.staZp (n : Byte) : TableRow.Statement (.staZp n) := ⟨rfl, _, rfl, rfl, rfl, rfl, rfl⟩
theorem TableRow.staZpX (n : Byte) : TableRow.Statement (.staZpX n) := ⟨rfl, _, rfl, rfl, rfl, rfl, rfl⟩
theorem TableRow.staAbs (a : Word) : TableRow.Statement (.staAbs a) := ⟨rfl, _, rfl, rfl, rfl, rfl, rfl⟩
theorem TableRow.staAbsX (a : Word) : TableRow.Statement (.staAbsX a) := ⟨rfl, _, rfl, rfl, rfl, rfl, rfl⟩
theorem TableRow.staAbsY (a : Word) : TableRow.Statement (.staAbsY a) := ⟨rfl, _, rfl, rfl, rfl, rfl, rfl⟩
theorem TableRow.staIndX (n : Byte) : TableRow.Statement (.staIndX n) := ⟨rfl, _, rfl, rfl, rfl, rfl, rfl⟩
theorem TableRow.staIndY (n : Byte) : TableRow.Statement (.staIndY n) := ⟨rfl, _, rfl, rfl, rfl, rfl, rfl⟩
theorem TableRow.tax : TableRow.Statement .tax := ⟨rfl, _, rfl, rfl, rfl, rfl, rfl⟩
theorem TableRow.inx : TableRow.Statement .inx := ⟨rfl, _, rfl, rfl, rfl, rfl, rfl⟩

end Sys2Proof.Laws
end

