-- ==== Sys2Proof/Laws/Step.lean ====
section
/-! SUPPORT. What the host's calls and one step can do: an equation for each call, and one inversion lemma each for
the call, the host's turn and the step. -/

namespace Sys2Proof.Machine

/-- The state `reset()` leaves (R181). -/
theorem resetCall_eq (s : State) :
    resetCall s = .ok ((((s.setA 0x00).setX 0x00).setP Status.zero).setPc (wordOf (s.mem.get 0xFFFD) (s.mem.get 0xFFFC))) :=
  rfl

/-- R35: everything a 16-bit write can do where both cells exist. -/
theorem memWrite16_eq (s : State) (addr v : Word) (h : cellExists (addr.toNat + 1) = true) :
    memWrite16 s addr v =
      .ok (s.setMem ((s.mem.set addr.toNat (lowByte v)).set (addr.toNat + 1) (highByte v))) := by
  have hlt := (cellExists_iff _).1 h
  have h0 : addr ≠ 0xFFFF := fun e => by simp [e] at hlt
  have hn : (addr + 1).toNat = addr.toNat + 1 := by
    have : (1 : Word).toNat = 1 := rfl
    rw [BitVec.toNat_add, this]
    omega
  have h1 : addr + 1 ≠ 0xFFFF := fun e => by
    have : (addr + 1).toNat = 65535 := by rw [e]; rfl
    omega
  rw [memWrite16, if_neg h0, memWrite_eq, if_neg h0]
  simp only [memWrite_eq, h1, if_false, hn, State.setMem_mem]
  rfl

/-- The state `load_and_run` leaves at the start of its run (R182): the vector is written after the image (R193). -/
theorem loadAndRunCall_eq (s : State) (bytes : List Byte) :
    loadAndRunCall s bytes =
      .ok (runCall (((((s.setMem (((s.mem.copy 0x8000 bytes).set 0xFFFC 0x00).set 0xFFFD 0x80)).setA 0x00).setX
        0x00).setP Status.zero).setPc 0x8000)) := by
  have hw : memWrite16 (loadProgram s Config.programOrigin bytes) Config.resetVector Config.programOrigin =
      .ok (s.setMem (((s.mem.copy 0x8000 bytes).set 0xFFFC 0x00).set 0xFFFD 0x80)) :=
    memWrite16_eq _ _ _ rfl
  rw [loadAndRunCall, hw]
  simp only [resetCall_eq, State.setMem_mem, Memory.get_set_self,
    Memory.get_set_other _ (0x80 : Byte) (show (0xFFFC : Nat) ≠ 0xFFFD by decide)]
  rfl

/-- Everything a host call that completes does (R181 to R186). -/
theorem hostCall_next {c : HostCall} {s t : State} (h : hostCall c s = .next t) :
    (c = .reset ∧
      t = (((s.setA 0x00).setX 0x00).setP Status.zero).setPc (wordOf (s.mem.get 0xFFFD) (s.mem.get 0xFFFC))) ∨
    (c = .run ∧ t = runCall s) ∨
    (∃ bytes, c = .loadAndRun bytes ∧ bytes.length ≤ 32767 ∧
      t = runCall (((((s.setMem (((s.mem.copy 0x8000 bytes).set 0xFFFC 0x00).set 0xFFFD 0x80)).setA 0x00).setX
        0x00).setP Status.zero).setPc 0x8000)) ∨
    (∃ addr v, c = .memWrite addr v ∧ addr ≠ 0xFFFF ∧ t = s.setMem (s.mem.set addr.toNat v)) ∨
    (∃ addr v, c = .memWrite16 addr v ∧ cellExists (addr.toNat + 1) = true ∧
      t = s.setMem ((s.mem.set addr.toNat (lowByte v)).set (addr.toNat + 1) (highByte v))) ∨
    (∃ addr, c = .memRead addr ∧ addr ≠ 0xFFFF ∧ t = s.addSeen (s.mem.get addr.toNat)) := by
  cases c with
  | reset => exact .inl ⟨rfl, (Host.Outcome.next.inj h).symm⟩
  | run => exact .inr (.inl ⟨rfl, (Host.Outcome.next.inj h).symm⟩)
  | loadAndRun bytes =>
    simp only [hostCall, loadAndRunCall_eq, answer] at h
    split at h
    · rename_i hf
      have ho : Config.programOrigin.toNat = 32768 := rfl
      have hm : Config.memSize = 65535 := rfl
      have := of_decide_eq_true hf
      exact .inr (.inr (.inl ⟨bytes, rfl, by omega, (Host.Outcome.next.inj h).symm⟩))
    · cases h
  | memWrite addr v =>
    simp only [hostCall, memWriteCall] at h
    split at h
    · rename_i hx
      have ha := (cellExists_word addr).1 hx
      rw [memWrite_eq, if_neg ha] at h
      exact .inr (.inr (.inr (.inl ⟨addr, v, rfl, ha, (Host.Outcome.next.inj h).symm⟩)))
    · cases h
  | memWrite16 addr v =>
    simp only [hostCall, memWrite16Call] at h
    split at h
    · rename_i hx
      rw [memWrite16_eq _ _ _ hx] at h
      exact .inr (.inr (.inr (.inr (.inl ⟨addr, v, rfl, hx, (Host.Outcome.next.inj h).symm⟩))))
    · cases h
  | memRead addr =>
    simp only [hostCall, memReadCall] at h
    split at h
    · rename_i hx
      have ha := (cellExists_word addr).1 hx
      rw [memRead_eq, if_neg ha] at h
      exact .inr (.inr (.inr (.inr (.inr ⟨addr, rfl, ha, (Host.Outcome.next.inj h).symm⟩))))
    · cases h

/-- Everything the host's turn that completes does: it waits, or its next call completes. -/
theorem hostTurn_next {s t : State} (h : hostTurn s = .next t) :
    (s.calls = [] ∧ t = s) ∨ ∃ c rest, s.calls = c :: rest ∧ hostCall c (s.setCalls rest) = .next t := by
  unfold hostTurn at h
  split at h
  · exact .inl ⟨‹_›, (Host.Outcome.next.inj h).symm⟩
  · exact .inr ⟨_, _, ‹_›, h⟩

/-- Everything a step that completes does: an instruction inside a run, the host's turn outside it. -/
theorem stepWith_next {extra : List Descriptor} {s t : State} (h : stepWith extra s = .next t) :
    (s.runState = .running ∧ ∃ i, fetchInstr extra s = .ok i ∧ exec i s = .next t) ∨
    ((s.runState = .ready ∨ s.runState = .halted) ∧ hostTurn s = .next t) := by
  unfold stepWith at h
  split at h
  · refine .inl ⟨‹_›, ?_⟩
    unfold runStep at h
    split at h
    · cases h
    · exact ⟨_, ‹_›, h⟩
  · exact .inr ⟨.inl ‹_›, h⟩
  · exact .inr ⟨.inr ‹_›, h⟩
  · cases h

end Sys2Proof.Machine
end

