-- ==== Sys2Proof/Tests/Slice0.lean ====
section
/-! SUPPORT. Tests: words and vectors copied from spec/30_encoding.md (R54, R59) and spec/95_test_vectors.md, ill-formed
terms that the checks refuse, and a witness for the hypotheses of every statement that has some. -/

namespace Sys2Proof.Tests

open Sys2Proof Sys2Proof.Machine Sys2Proof.Safety

/-! ## Helpers -/

/-- Memory with these cells. -/
def cells (l : List (Nat × Byte)) : Memory := l.foldl (fun m c => m.set c.1 c.2) []

/-- A state inside a run at `pc`, with these bytes there and these other cells; registers zero. -/
def running (pc : Word) (bytes : List Byte) (others : List (Nat × Byte)) : State :=
  { State.reset with pc := pc, runState := .running, mem := placeBytes (cells others) pc.toNat bytes }

/-- The usual start of spec/95: `PC` = 0x8000. -/
def at8000 (bytes : List Byte) (others : List (Nat × Byte)) : State := running 0x8000 bytes others

def nextState? : Host.Outcome State Fault Refusal → Option State
  | .next s => some s
  | .fault _ => none
  | .refused _ => none

def fault? : Host.Outcome State Fault Refusal → Option Fault
  | .next _ => none
  | .fault f => some f
  | .refused _ => none

def refusal? : Host.Outcome State Fault Refusal → Option Refusal
  | .next _ => none
  | .fault _ => none
  | .refused r => some r

/-- What one step leaves in `A`, Zero, Negative and `PC`. -/
def loaded (s : State) : Option (Byte × Bool × Bool × Word) :=
  (nextState? (step s)).map fun t => (t.a, t.flag .z, t.flag .n, t.pc)

/-- What one step leaves in the cell `addr`, in `A`, `P` and `PC`. -/
def stored (s : State) (addr : Nat) : Option (Byte × Byte × Status × Word) :=
  (nextState? (step s)).map fun t => (t.mem.get addr, t.a, t.p, t.pc)

/-- What one step leaves in `X`, `P` and `PC`. -/
def inX (s : State) : Option (Byte × Status × Word) := (nextState? (step s)).map fun t => (t.x, t.p, t.pc)

/-- 95 section 2.1, first row: N V D I Z C = 0 1 1 1 0 1 and the two bits without a name 1. -/
def marked : Status := ⟨false, true, true, true, true, true, false, true⟩

/-- All eight bits set. -/
def allSet : Status := ⟨true, true, true, true, true, true, true, true⟩

/-! ## Well-formedness: an ill-formed term for each check -/

/-- R61: an immediate row of length 3. -/
theorem test_descriptor_wrong_length : Descriptor.wf ⟨0xA9, .lda, .immediate, 3, 2, 0⟩ = false := by decide
/-- R61: a no-operand row of length 0. -/
theorem test_descriptor_zero_length : Descriptor.wf ⟨0xAA, .tax, .noneAddressing, 0, 2, 0⟩ = false := by decide
/-- R53: a table with the same key twice. -/
theorem test_keys_not_unique :
    keysUnique [⟨0xAA, .tax, .noneAddressing, 1, 2, 0⟩, ⟨0xAA, .inx, .noneAddressing, 1, 2, 0⟩] = false := by decide
/-- R61: a table with one bad row. -/
theorem test_table_bad_row : tableWf [⟨0xAD, .lda, .absolute, 2, 4, 0⟩] = false := by decide
/-- R56: an extra opcode that is implemented already. -/
theorem test_extra_not_disjoint :
    extraWf opTable [⟨0xA9, .other "LDX", .immediate, 2, 2, 0⟩] = false := by decide
/-- R56: an extra opcode named BRK. -/
theorem test_extra_named_brk : extraWf opTable [⟨0x02, .brk, .noneAddressing, 1, 7, 0⟩] = false := by decide
/-- 95 section 2.8: the illustration's two extra opcodes are admitted. -/
def extras : List Descriptor := [⟨0xEA, .other "NOP", .noneAddressing, 1, 2, 0⟩, ⟨0x4C, .other "JMP", .absolute, 3, 3, 0⟩]
theorem test_extra_admitted : extraWf opTable extras = true := by decide
/-- R5: the widths. -/
theorem test_widths : Byte = BitVec Config.regWidth ∧ Word = BitVec Config.pcWidth := ⟨rfl, rfl⟩

/-! ## Decoding: a word of every row, from R59's last column -/

theorem test_decode_brk : decode [0x00] = .ok (.brk, []) := by rfl
theorem test_decode_ldaImm : decode [0xA9, 0x05] = .ok (.ldaImm 0x05, []) := by rfl
theorem test_decode_ldaZp : decode [0xA5, 0x10] = .ok (.ldaZp 0x10, []) := by rfl
theorem test_decode_ldaZpX : decode [0xB5, 0xFF] = .ok (.ldaZpX 0xFF, []) := by rfl
theorem test_decode_ldaAbs : decode [0xAD, 0x34, 0x12] = .ok (.ldaAbs 0x1234, []) := by rfl
theorem test_decode_ldaAbsX : decode [0xBD, 0x00, 0x02] = .ok (.ldaAbsX 0x0200, []) := by rfl
theorem test_decode_ldaAbsY : decode [0xB9, 0x00, 0x03] = .ok (.ldaAbsY 0x0300, []) := by rfl
theorem test_decode_ldaIndX : decode [0xA1, 0x20] = .ok (.ldaIndX 0x20, []) := by rfl
theorem test_decode_ldaIndY : decode [0xB1, 0x86] = .ok (.ldaIndY 0x86, []) := by rfl
theorem test_decode_staZp : decode [0x85, 0x10] = .ok (.staZp 0x10, []) := by rfl
theorem test_decode_staZpX : decode [0x95, 0x80] = .ok (.staZpX 0x80, []) := by rfl
theorem test_decode_staAbs : decode [0x8D, 0x05, 0x80] = .ok (.staAbs 0x8005, []) := by rfl
theorem test_decode_staAbsX : decode [0x9D, 0xF0, 0xFF] = .ok (.staAbsX 0xFFF0, []) := by rfl
theorem test_decode_staAbsY : decode [0x99, 0x00, 0x03] = .ok (.staAbsY 0x0300, []) := by rfl
theorem test_decode_staIndX : decode [0x81, 0xFE] = .ok (.staIndX 0xFE, []) := by rfl
theorem test_decode_staIndY : decode [0x91, 0x20] = .ok (.staIndY 0x20, []) := by rfl
theorem test_decode_tax : decode [0xAA] = .ok (.tax, []) := by rfl
theorem test_decode_inx : decode [0xE8, 0x00] = .ok (.inx, [0x00]) := by rfl
/-- R55, 95 section 2.8: the hole in the STA column, the family's NOP, and 0xFF. -/
theorem test_decode_rejects :
    decode [0x89, 0x00] = .error (.unrecognized 0x89) ∧ decode [0xEA] = .error (.unrecognized 0xEA) ∧
    decode [0xFF, 0xFF] = .error (.unrecognized 0xFF) := ⟨rfl, rfl, rfl⟩
/-- R50: an instruction cut short, and no instruction at all. -/
theorem test_decode_short : decode [0xAD, 0x34] = .error (.truncated 0xAD) ∧ decode [] = .error .noBytes := ⟨rfl, rfl⟩
/-- R56, 95 section 2.8: a registered, unimplemented byte. -/
theorem test_decode_extra : decodeWith extras [0xEA] = .error (.unimplemented 0xEA) := by rfl
/-- The table's numbering: the first byte is the least significant. -/
theorem test_table_word : decodeTableWord 24 0x1234AD = some (.ldaAbs 0x1234) ∧ decodeTableWord 8 0xA9 = some (.ldaImm 0) :=
  ⟨rfl, rfl⟩
/-- R59: assembler text. -/
theorem test_text : (Instr.ldaIndY 0x8F).text = "LDA ($8F),Y" ∧ (Instr.staAbsX 0x12AB).text = "STA $12AB,X" :=
  ⟨by decide, by decide⟩

/-! ## One step (95 sections 2.3 to 2.8) -/

theorem test_ldaImm : loaded { at8000 [0xA9, 0x7F] [] with p := { Status.zero with n := true, z := true } } = some (0x7F, false, false, 0x8002) := by decide
theorem test_ldaImm_top : fault? (step (running 0xFFFE [0xA9] [])) = some (.memoryOutOfRange 0xFFFF) := by decide
theorem test_ldaZp : loaded (at8000 [0xA5, 0x10] [(0x10, 0x80)]) = some (0x80, false, true, 0x8002) := by decide
theorem test_ldaZpX : loaded { at8000 [0xB5, 0xFF] [(0x04, 0x2A), (0x104, 0xEE)] with x := 0x05 }
    = some (0x2A, false, false, 0x8002) := by decide
theorem test_ldaAbs_own_byte : loaded (at8000 [0xAD, 0x01, 0x80] []) = some (0x01, false, false, 0x8003) := by decide
theorem test_ldaAbs_fault : fault? (step (at8000 [0xAD, 0xFF, 0xFF] [])) = some (.memoryOutOfRange 0xFFFF) := by decide
theorem test_ldaAbsX : loaded { at8000 [0xBD, 0xFF, 0xFF] [(0x00, 0xC4)] with x := 0x01 }
    = some (0xC4, false, true, 0x8003) := by decide
theorem test_ldaAbsX_fault : fault? (step { at8000 [0xBD, 0xF0, 0xFF] [] with x := 0x0F })
    = some (.memoryOutOfRange 0xFFFF) := by decide
theorem test_ldaAbsY : loaded { at8000 [0xB9, 0xFF, 0xFF] [(0x00, 0x99)] with y := 0x01 }
    = some (0x99, false, true, 0x8003) := by decide
theorem test_ldaIndX : loaded { at8000 [0xA1, 0xFE] [(0xFF, 0x34), (0x00, 0x12), (0x1234, 0x00)] with x := 0x01, a := 0x55 }
    = some (0x00, true, false, 0x8002) := by decide
theorem test_ldaIndX_fault : fault? (step (at8000 [0xA1, 0x10] [(0x10, 0xFF), (0x11, 0xFF)]))
    = some (.memoryOutOfRange 0xFFFF) := by decide
theorem test_ldaIndY : loaded { at8000 [0xB1, 0xFF] [(0xFF, 0x00), (0x00, 0x03), (0x304, 0xFF)] with y := 0x04 }
    = some (0xFF, false, true, 0x8002) := by decide

theorem test_staZp : stored { at8000 [0x85, 0x10] [(0x10, 0x77)] with a := 0x00, p := marked } 0x10
    = some (0x00, 0x00, marked, 0x8002) := by decide
theorem test_staZpX : stored { at8000 [0x95, 0x80] [] with a := 0xAB, x := 0x90, p := marked } 0x10
    = some (0xAB, 0xAB, marked, 0x8002) := by decide
theorem test_staAbs_last_cell : stored { at8000 [0x8D, 0xFE, 0xFF] [] with a := 0xAB, p := marked } 0xFFFE
    = some (0xAB, 0xAB, marked, 0x8003) := by decide
theorem test_staAbs_fault : fault? (step (running 0xFFFD [0x8D] [])) = some (.memoryOutOfRange 0xFFFF) := by decide
theorem test_staAbsX : stored { at8000 [0x9D, 0xF0, 0xFF] [] with a := 0xAB, x := 0x20, p := marked } 0x10
    = some (0xAB, 0xAB, marked, 0x8003) := by decide
theorem test_staAbsY : stored { at8000 [0x99, 0x00, 0x03] [] with a := 0xAB, y := 0x05, p := marked } 0x305
    = some (0xAB, 0xAB, marked, 0x8003) := by decide
theorem test_staIndX_own_pointer : stored { at8000 [0x81, 0x20] [(0x20, 0x20)] with a := 0xAB, p := marked } 0x20
    = some (0xAB, 0xAB, marked, 0x8002) := by decide
theorem test_staIndY : stored { at8000 [0x91, 0x20] [(0x20, 0x80), (0x21, 0x03)] with a := 0xAB, y := 0xFF, p := marked } 0x47F
    = some (0xAB, 0xAB, marked, 0x8002) := by decide

theorem test_tax : inX { at8000 [0xAA] [] with a := 0xFF, x := 0x33, p := { Status.zero with v := true, z := true, c := true } }
    = some (0xFF, { Status.zero with n := true, v := true, c := true }, 0x8001) := by decide
theorem test_inx_wrap : inX { at8000 [0xE8] [] with x := 0xFF, p := { Status.zero with c := true } }
    = some (0x00, { Status.zero with z := true, c := true }, 0x8001) := by decide
theorem test_inx_sign : inX { at8000 [0xE8] [] with x := 0x7F } = some (0x80, { Status.zero with n := true }, 0x8001) := by decide
theorem test_brk_top : (nextState? (step { running 0xFFFE [] [] with a := 0x11, p := allSet })).map
    (fun t => (t.runState, t.pc, t.a, t.p)) = some (.halted, 0xFFFF, 0x11, allSet) := by decide
theorem test_fetch_top : fault? (step (running 0xFFFF [] [])) = some (.memoryOutOfRange 0xFFFF) := by decide
theorem test_unrecognized_top : fault? (step (running 0xFFFE [0xFF] [])) = some (.unrecognizedOpcode 0xFF 0xFFFE) := by decide
theorem test_unimplemented : fault? (stepWith extras (at8000 [0xEA] [])) = some (.unimplementedInstruction 0xEA 0x8000) := by decide
theorem test_unimplemented_top : fault? (stepWith extras (running 0xFFFE [0x4C] [])) = some (.memoryOutOfRange 0xFFFF) := by
  decide
/-- 95 section 2.1: `SetZN` with other flags set, by named flags. -/
theorem test_setZN_zero : (({ State.reset with p := marked } : State).setZN 0x00).p = { marked with z := true } := by decide
theorem test_setZN_clears_both : (({ State.reset with p := { Status.zero with n := true, z := true } } : State).setZN 0x01).p
    = Status.zero := by decide
/-- 95 section 2.1: R15's byte view of the first row, before and after. -/
theorem test_status_layout : marked.toByte = 0x7D ∧ ({ marked with z := true } : Status).toByte = 0x7F ∧
    Status.ofByte 0x7D = marked := by decide
/-- R15: the masks. -/
theorem test_masks : ([.n, .v, .d, .i, .z, .c] : List Flag).map Flag.mask = [0x80, 0x40, 0x08, 0x04, 0x02, 0x01] := by decide
/-- 95 section 2.2: the modes' corner rows. -/
theorem test_resolve_zeroPageY : resolve .zeroPageY { running 0x8001 [0xF0] [] with y := 0x20 } = .ok 0x0010 := by rfl
theorem test_resolve_indirectX : resolve .indirectX { running 0x8001 [0x80] [(0x00, 0xCD), (0x01, 0xAB)] with x := 0x80 }
    = .ok 0xABCD := by rfl
theorem test_resolve_indirectY : resolve .indirectY { running 0x8001 [0x86] [(0x86, 0xF8), (0x87, 0x40)] with y := 0x10 }
    = .ok 0x4108 := by rfl
theorem test_resolve_immediate_top : resolve .immediate (running 0xFFFF [] []) = .ok 0xFFFF := by rfl

/-! ## The host (95 section 2.9) -/

/-- The start row of section 2.9, with this call pending. -/
def hostState (c : HostCall) : State :=
  { State.new with
    a := 0x11, x := 0x22, y := 0x33, p := allSet, pc := 0x1234, calls := [c],
    mem := cells [(0xFFFD, 0x80), (0x10, 0x77)] }

theorem test_host_reset : (nextState? (step (hostState .reset))).map
    (fun t => (t.a, t.x, t.y, t.p, t.pc, t.mem.get 0x10)) = some (0x00, 0x00, 0x33, Status.zero, 0x8000, 0x77) := by decide
theorem test_host_write16 : (nextState? (step (hostState (.memWrite16 0xFFFC 0xC123)))).map
    (fun t => (t.mem.get 0xFFFC, t.mem.get 0xFFFD)) = some (0x23, 0xC1) := by decide
theorem test_host_read : (nextState? (step (hostState (.memRead 0x10)))).map (·.seen) = some [0x77] := by decide
theorem test_host_refused :
    refusal? (step (hostState (.memRead 0xFFFF))) = some (.hostAddressOutOfContract 0xFFFF) ∧
    refusal? (step (hostState (.memWrite 0xFFFF 1))) = some (.hostAddressOutOfContract 0xFFFF) ∧
    refusal? (step (hostState (.memWrite16 0xFFFE 1))) = some (.hostAddressOutOfContract 0xFFFE) := by decide
/-- S4's image: loaded, entered at 0x8000, the vector written, Y kept. -/
theorem test_load_and_run : (nextState? (step (hostState (.loadAndRun [0xA9, 0x05, 0xAA, 0x00])))).map
    (fun t => (t.pc, t.y, t.runState, t.mem)) =
    some (0x8000, 0x33, .running, [(0x10, 0x77), (0x8000, 0xA9), (0x8001, 0x05), (0x8002, 0xAA), (0xFFFD, 0x80)]) := by decide
/-- S4 as the machine runs it: load_and_run, LDA, TAX, BRK. -/
theorem test_s4 : (nextState? (core.run 4 { State.new with calls := [.loadAndRun [0xA9, 0x05, 0xAA, 0x00]] })).map
    (fun t => (t.a, t.x, t.flag .z, t.flag .n, t.pc, t.runState)) = some (0x05, 0x05, false, false, 0x8004, .halted) := by decide
/-- R190: the reads of a frame go to ascending cells. -/
theorem test_read_calls : readCalls 0x0200 2 = [.memRead 0x0200, .memRead 0x0201] := by decide

/-! ## The host's placing of an instruction: a row each of the three lengths is the first instruction after reset -/

theorem test_place_inx : inX (State.reset.withFetchWord 8 0xE8) = some (0x01, Status.zero, 0x0001) := by decide
theorem test_place_ldaImm : loaded (State.reset.withFetchWord 16 0x80A9) = some (0x80, false, true, 0x0002) := by decide
theorem test_place_ldaAbs : loaded (State.reset.withFetchWord 24 0x0001AD) = some (0x01, false, false, 0x0003) := by decide

/-! ## Witnesses: states and operands that meet the statements' hypotheses -/

/-- `s` steps to a next state. -/
abbrev steps (s : State) : Bool := (nextState? (step s)).isSome

/-- A state inside a run whose opcode byte `b` stands at `pc`, with nothing after it. -/
abbrev opcodeAt (b : Byte) (pc : Word) : Prop :=
  (running pc [b] []).runState = .running ∧ (running pc [b] []).pc = pc ∧ memRead (running pc [b] []) pc = .ok b

theorem witness_LookupIsTotalAndUnique : extraWf opTable extras = true ∧ extraWf opTable [] = true := by decide
theorem witness_UnrecognizedOpcodesFault :
    opcodeAt 0x89 0x8000 ∧ (0x89 : Byte) ∉ implementedOpcodes ∧ opcodeAt 0xE8 0xFFFE ∧ (0xE8 : Byte) ∈ implementedOpcodes := by
  decide
theorem witness_ResetCallRule : (hostState .reset).runState = .ready ∧ (hostState .reset).calls = .reset :: [] := by decide
theorem witness_ByteRules : (0xFFFE : Word) ≠ 0xFFFF ∧ (0xFFFF : Word) = 0xFFFF := by decide
theorem witness_WordRules :
    (0xFFFD : Word).toNat < 0xFFFE ∧ 0xFFFE ≤ (0xFFFE : Word).toNat ∧ 0xFFFE ≤ (0xFFFF : Word).toNat := by decide
theorem witness_StepKeepsMemoryCanonical :
    (at8000 [0x85, 0x10] [(0x10, 0x77)]).mem.wf ∧ steps (at8000 [0x85, 0x10] [(0x10, 0x77)]) = true ∧
    (hostState (.memWrite 0x10 0)).mem.wf ∧ steps (hostState (.memWrite 0x10 0)) = true := by decide
theorem witness_OnlyResetWritesTheOtherFlags :
    (at8000 [0xE8] []).runState = .running ∧ steps (at8000 [0xE8] []) = true ∧
    (∀ c ∈ ([.reset, .loadAndRun [0xAA], .run, .memWrite 0x10 0] : List HostCall),
      (hostState c).runState ≠ .running ∧ steps (hostState c) = true) ∧
    ResetsNext (hostState .reset) ∧ ResetsNext (hostState (.loadAndRun [0xAA])) ∧
    ¬ResetsNext (hostState .run) ∧ ¬ResetsNext (hostState (.memWrite 0x10 0)) := by
  refine ⟨by decide, by decide, by decide, ⟨[], .inl rfl⟩, ⟨[], .inr ⟨_, rfl⟩⟩, ?_, ?_⟩ <;>
    simp [ResetsNext, hostState]
/-- Two states that differ only in what no claim may see: a bit without a name, and the host's fields. -/
theorem witness_ObservationDecidesTheEnding :
    let s := at8000 [0xE8] []
    let t := { s with p := { s.p with spareHigh := true }, calls := [.run], seen := [0x77] }
    s.runState = .running ∧ t.runState = .running ∧ observe s = observe t ∧ s ≠ t := by decide
theorem witness_FlagsNeverInfluenceExecution :
    steps (at8000 [0xE8] []) = true ∧ (fault? (step (at8000 [0xFF] []))).isSome = true ∧
    (refusal? (step (hostState (.memRead 0xFFFF)))).isSome = true := by decide
theorem witness_ZeroAndNegativeNeverBoth :
    ¬((at8000 [0xE8] []).flag .z = true ∧ (at8000 [0xE8] []).flag .n = true) ∧ steps (at8000 [0xE8] []) = true := by decide
theorem witness_NothingWritesY : steps (at8000 [0xE8] []) = true ∧ steps (hostState .reset) = true := by decide
theorem witness_ResolveRules :
    (running 0xFFFE [0x10] []).pc ≠ 0xFFFF ∧ resolve .zeroPage (running 0xFFFE [0x10] []) = .ok 0x0010 ∧
    (running 0xFFFF [] []).pc = 0xFFFF ∧ (running 0xFFFD [0x34, 0x12] []).pc.toNat < 0xFFFE ∧
    0xFFFE ≤ (running 0xFFFE [] []).pc.toNat := by refine ⟨?_, rfl, ?_⟩ <;> decide
theorem witness_ResolverDependsAndFaults :
    (∀ s : State, (s.setP allSet).pc = s.pc ∧ (s.setP allSet).x = s.x ∧ (s.setP allSet).y = s.y ∧ SameReads s (s.setP allSet)) ∧
    Mode.absolute ≠ .noneAddressing ∧
    resolve .absolute (running 0xFFFE [] []) = .error (.memoryOutOfRange 0xFFFF) :=
  ⟨fun _ => ⟨rfl, rfl, rfl, fun _ => rfl⟩, by decide, rfl⟩
/-- R111 to R113, R117, R118, R121, R122, R126, R127: the two-byte forms at 0xFFFE. -/
theorem witness_operand_missing_two_bytes :
    ∀ b ∈ ([0xA9, 0xA5, 0xB5, 0xA1, 0xB1, 0x85, 0x95, 0x81, 0x91] : List Byte), opcodeAt b 0xFFFE := by decide
/-- R114 to R116, R123 to R125: the three-byte forms at 0xFFFD and 0xFFFE. -/
theorem witness_operand_missing_three_bytes :
    ∀ b ∈ ([0xAD, 0xBD, 0xB9, 0x8D, 0x9D, 0x99] : List Byte), opcodeAt b 0xFFFD ∧ opcodeAt b 0xFFFE := by decide
/-- R114, R123: the two clauses of the absolute forms, where they meet. -/
theorem witness_absolute_rules : wordOf 0xFF 0xFE ≠ 0xFFFF ∧ wordOf 0xFF 0xFF = 0xFFFF := by decide
/-- R115, R124 with X, R116, R125 with Y: the clauses of the indexed forms, below, at and past 0xFFFF. -/
theorem witness_indexed_rules :
    wordOf 0xFF 0xF0 + zext16 0x0E ≠ 0xFFFF ∧ wordOf 0xFF 0xF0 + zext16 0x0F = 0xFFFF ∧
    wordOf 0xFF 0xF0 + zext16 0x10 ≠ 0xFFFF := by decide
/-- R117, R118, R126, R127: the clauses of the indirect forms, for a pointer at 0x10. -/
theorem witness_indirect_rules :
    zeroPagePointer (at8000 [] [(0x10, 0xFE), (0x11, 0xFF)]) 0x10 ≠ 0xFFFF ∧
    zeroPagePointer (at8000 [] [(0x10, 0xFF), (0x11, 0xFF)]) 0x10 = 0xFFFF ∧
    zeroPagePointer (at8000 [] [(0x10, 0xFE), (0x11, 0xFF)]) 0x10 + zext16 0x01 = 0xFFFF := by decide
/-- R111 to R141: every form inside a run, its bytes at `PC`. -/
theorem witness_step_is :
    ∀ i ∈ ([.ldaImm 5, .ldaZp 0x10, .ldaZpX 0xFF, .ldaAbs 0x1234, .ldaAbsX 0xFFF0, .ldaAbsY 0xFFFF, .ldaIndX 0x80,
        .ldaIndY 0x86, .staZp 0x10, .staZpX 0x80, .staAbs 0x8005, .staAbsX 0xFFF0, .staAbsY 0x0300, .staIndX 0xFE,
        .staIndY 0x20, .tax, .inx] : List Instr),
      (at8000 (encode i) []).runState = .running ∧
      (at8000 (encode i) []).pc.toNat + (encode i).length ≤ Config.memSize ∧
      (at8000 (encode i) []).mem.bytesFrom (at8000 (encode i) []).pc.toNat (encode i).length = encode i := by decide
/-- R23: the three premises on an instruction. -/
theorem witness_SetZNRule :
    ∀ i ∈ ([.ldaImm 5, .staZp 0x10, .tax, .inx, .brk] : List Instr), (nextState? (exec i State.reset)).isSome = true := by
  decide
theorem witness_LdaFrame :
    (Instr.ldaZp 0x10).mnemonic = .lda ∧ (nextState? (exec (.ldaZp 0x10) State.reset)).isSome = true := by decide
theorem witness_StaFrame :
    (Instr.staIndY 0x10).mnemonic = .sta ∧ (nextState? (exec (.staIndY 0x10) State.reset)).isSome = true ∧
    operandAddress (Instr.staIndY 0x10).operand State.reset = .ok 0x0000 := ⟨by decide, by decide, rfl⟩
theorem witness_InxRule : ({ State.reset with x := 0xFF } : State).x = 0xFF := by decide
theorem witness_TaxInxFrame :
    (nextState? (exec .tax State.reset)).isSome = true ∧ (nextState? (exec .inx State.reset)).isSome = true := by decide
theorem witness_BrkRule : opcodeAt 0x00 0x8000 ∧ opcodeAt 0x00 0xFFFE := by decide
theorem witness_StepRunsTheDecodedInstruction :
    (at8000 [0xAD, 0x34, 0x12] []).runState = .running ∧
    decode ((at8000 [0xAD, 0x34, 0x12] []).mem.bytesFrom (at8000 [0xAD, 0x34, 0x12] []).pc.toNat 3) = .ok (.ldaAbs 0x1234, []) ∧
    (at8000 [0xAD, 0x34, 0x12] []).pc.toNat + (Instr.ldaAbs 0x1234).length ≤ Config.memSize := ⟨rfl, rfl, by decide⟩
theorem witness_running_steps :
    (at8000 [0x85, 0x10] []).runState = .running ∧ steps (at8000 [0x85, 0x10] []) = true ∧
    (running 0xFFFE [0xE8] []).runState = .running ∧ steps (running 0xFFFE [0xE8] []) = true ∧
    (running 0xFFFF [] []).pc = 0xFFFF := by decide
/-- R152: one descriptor for each clause, at the addresses where the clauses meet. -/
theorem witness_UnimplementedOpcodesFault :
    extraWf opTable [⟨0xA2, .other "LDX", .immediate, 2, 2, 0⟩, ⟨0x4C, .other "JMP", .absolute, 3, 3, 0⟩] = true ∧
    opcodeAt 0xA2 0xFFFE ∧ opcodeAt 0x4C 0xFFFC ∧ (0xFFFC : Word).toNat + 3 ≤ 0xFFFF ∧
    opcodeAt 0x4C 0xFFFD ∧ 0xFFFF < (0xFFFD : Word).toNat + 3 := by decide
theorem witness_StepRefinesTheSpecsStep : extraWf opTable extras = true ∧ (at8000 [0x4C] []).runState = .running := by decide
theorem witness_EveryRunEnds : (at8000 [0xA9, 0x05, 0xAA, 0x00] []).runState = .running := by decide
theorem witness_RunStateTransitions :
    ({ State.reset with runState := .faulted } : State).runState = .faulted ∧ steps (at8000 [] []) = true ∧
    (at8000 [] []).runState = .running ∧ steps (hostState .run) = true ∧ (hostState .run).runState = .ready := by decide
theorem witness_HaltedCoreWaits :
    ({ State.reset with runState := .halted } : State).runState = .halted ∧ State.reset.calls = [] := by decide
theorem witness_RunCallRule : (hostState .run).runState = .ready ∧ (hostState .run).calls = .run :: [] := by decide
theorem witness_HostWriteRules :
    (hostState (.memWrite 0xFFFE 1)).calls = .memWrite 0xFFFE 1 :: [] ∧
    (hostState (.memWrite 0xFFFF 1)).calls = .memWrite 0xFFFF 1 :: [] ∧
    (hostState (.memWrite16 0xFFFD 1)).calls = .memWrite16 0xFFFD 1 :: [] ∧
    (hostState (.memWrite16 0xFFFE 1)).calls = .memWrite16 0xFFFE 1 :: [] ∧
    ∀ c, (hostState c).runState = .ready := ⟨rfl, rfl, rfl, rfl, fun _ => rfl⟩
theorem witness_HostReadRule :
    (hostState (.memRead 0xFFFE)).calls = .memRead 0xFFFE :: [] ∧ (hostState (.memRead 0xFFFF)).calls = .memRead 0xFFFF :: [] ∧
    ∀ c, (hostState c).runState = .ready := ⟨rfl, rfl, fun _ => rfl⟩
/-- R45: the longest image that fits, and one byte more. -/
theorem witness_LoadAndRunRule :
    (∀ bs, (hostState (.loadAndRun bs)).calls = .loadAndRun bs :: [] ∧ (hostState (.loadAndRun bs)).runState = .ready) ∧
    (List.replicate 32767 (0 : Byte)).length ≤ 32767 ∧ 32767 < (List.replicate 32768 (0 : Byte)).length :=
  ⟨fun _ => ⟨rfl, rfl⟩, List.length_replicate.le, by rw [List.length_replicate]; exact Nat.lt_succ_self 32767⟩

end Sys2Proof.Tests
end

/-! SUPPORT. R23: what `SetZN` does to `P`, and what each effect of `exec` does to it. -/

namespace Sys2Proof.Safety

open Sys2Proof Sys2Proof.Machine

/-- R23 speaks of `P` alone. -/
theorem FlagsFrom.congr {s s' t t' : State} {v : Byte} (h : FlagsFrom s t v) (hs : s'.p = s.p) (ht : t'.p = t.p) :
    FlagsFrom s' t' v := by
  simpa only [FlagsFrom, SameSpares, State.flag, hs, ht] using h

/-- No byte is both zero and negative. -/
theorem FlagsFrom.not_zero_and_negative {s t : State} {v : Byte} (h : FlagsFrom s t v) :
    ¬(t.flag .z = true ∧ t.flag .n = true) := by
  obtain ⟨hz, hn, -⟩ := h
  rintro ⟨htz, htn⟩
  have hv : v = 0x00 := hz.1 htz
  simp [hn, hv] at htn

/-- R23 for `SetZN` itself. -/
theorem flagsFrom_setZN (s : State) (v : Byte) : FlagsFrom s (s.setZN v) v := by
  refine ⟨?_, ?_, fun f hz hn => ?_, rfl, rfl⟩
  · simp [State.flag_setZN]
  · simp [State.flag_setZN]
  · rw [State.flag_setZN, if_neg hn, if_neg hz]

/-- `SetZN` writes nothing but `P`. -/
theorem setP_setZN (s : State) (v : Byte) : (s.setZN v).setP s.p = s := rfl

/-- R110: a completed load takes Zero and Negative from the new `A`. -/
theorem flagsFrom_load {o : Operand} {s t : State} (h : load o s = .next t) : FlagsFrom s t t.a := by
  obtain ⟨v, -, rfl⟩ := load_next h
  exact (flagsFrom_setZN (s.setA v) v).congr rfl (State.advance_p ..)

/-- R140, R141: TAX and INX take Zero and Negative from the new `X`. -/
theorem flagsFrom_intoX {v : Byte} {s t : State} (h : intoX v s = .next t) : FlagsFrom s t t.x := by
  obtain rfl := Host.Outcome.next.inj h
  exact (flagsFrom_setZN (s.setX v) v).congr rfl (State.advance_p ..)

/-- R120: a completed store writes no flag. -/
theorem store_keeps_p {o : Operand} {s t : State} (h : store o s = .next t) : t.p = s.p := by
  obtain ⟨ea, -, -, rfl⟩ := store_next h
  simp

/-- R23, R110, R120, R140, R141, R150: `P` after a completed instruction, one clause for each effect of `exec`. -/
theorem exec_flags {i : Instr} {s t : State} (h : exec i s = .next t) :
    (i.mnemonic = .lda → FlagsFrom s t t.a) ∧ (i = .tax ∨ i = .inx → FlagsFrom s t t.x) ∧
      (i.mnemonic = .sta ∨ i = .brk → t.p = s.p) := by
  rcases exec_shape i s with ⟨hm, he⟩ | ⟨hm, he⟩ | ⟨rfl, he⟩ | ⟨rfl, he⟩ | ⟨rfl, he⟩ <;> rw [he] at h
  · refine ⟨fun _ => flagsFrom_load h, ?_, ?_⟩
    · rintro (rfl | rfl) <;> cases hm
    · rintro (hs | rfl)
      · simp [hm] at hs
      · cases hm
  · refine ⟨fun hl => ?_, ?_, fun _ => store_keeps_p h⟩
    · simp [hm] at hl
    · rintro (rfl | rfl) <;> cases hm
  · exact ⟨nofun, fun _ => flagsFrom_intoX h, by simp [Instr.mnemonic]⟩
  · exact ⟨nofun, fun _ => flagsFrom_intoX h, by simp [Instr.mnemonic]⟩
  · obtain rfl := Host.Outcome.next.inj h
    exact ⟨nofun, by simp, fun _ => by simp⟩

/-- Settles O15: R23 for `SetZN`, and for each effect of `exec` by its shape. -/
theorem setZNRule : Obligations.SetZNRule := by
  intro s v
  exact ⟨flagsFrom_setZN s v, (flagsFrom_setZN s v).not_zero_and_negative, setP_setZN s v, fun _ _ => exec_flags⟩

end Sys2Proof.Safety

/-! SUPPORT. R54, R92, R164: the step at an instruction's own bytes, and at an opcode whose operand has no cell. -/

namespace Sys2Proof.Machine

open Sys2Proof Sys2Proof.Safety

/-- R54: every instruction agrees with its row of the table. -/
theorem tableRow_of_instr (i : Instr) : Laws.TableRow.Statement i := by
  cases i
  case brk => exact Laws.TableRow.brk
  case ldaImm n => exact Laws.TableRow.ldaImm n
  case ldaZp n => exact Laws.TableRow.ldaZp n
  case ldaZpX n => exact Laws.TableRow.ldaZpX n
  case ldaAbs a => exact Laws.TableRow.ldaAbs a
  case ldaAbsX a => exact Laws.TableRow.ldaAbsX a
  case ldaAbsY a => exact Laws.TableRow.ldaAbsY a
  case ldaIndX n => exact Laws.TableRow.ldaIndX n
  case ldaIndY n => exact Laws.TableRow.ldaIndY n
  case staZp n => exact Laws.TableRow.staZp n
  case staZpX n => exact Laws.TableRow.staZpX n
  case staAbs a => exact Laws.TableRow.staAbs a
  case staAbsX a => exact Laws.TableRow.staAbsX a
  case staAbsY a => exact Laws.TableRow.staAbsY a
  case staIndX n => exact Laws.TableRow.staIndX n
  case staIndY n => exact Laws.TableRow.staIndY n
  case tax => exact Laws.TableRow.tax
  case inx => exact Laws.TableRow.inx

/-- R54: the builder reads an instruction back from its operand bytes. -/
theorem buildInstr_encode_tail (i : Instr) : buildInstr i.mnemonic i.operand.mode (encode i).tail = some i := by
  cases i <;> simp [buildInstr, encode, Instr.mnemonic, Instr.operand, Operand.mode]

/-- R54: the encoding of an instruction is its opcode byte, of a row of the table, and its operand bytes. -/
theorem encode_eq_cons (i : Instr) :
    ∃ b d, encode i = b :: (encode i).tail ∧ lookup extraTable b = .implemented d ∧
      d.mnemonic = i.mnemonic ∧ d.mode = i.operand.mode ∧ d.length = (encode i).length := by
  obtain ⟨hlen, d, hd, -, hmn, hmo, hdl⟩ := tableRow_of_instr i
  cases he : encode i with
  | nil => simp [he] at hd
  | cons b ops => exact ⟨b, d, rfl, by simpa [he] using hd, hmn, hmo, by rw [hdl, ← hlen, he]⟩

theorem encode_injective {i j : Instr} (h : encode i = encode j) : i = j := by
  obtain ⟨b, d, hi, hld, hmn, hmo, -⟩ := encode_eq_cons i
  obtain ⟨c, e, hj, hle, hmn', hmo', -⟩ := encode_eq_cons j
  obtain rfl : b = c := by rw [h, hj] at hi; simpa using hi.symm
  obtain rfl : d = e := by simpa [hld] using hle
  have hb := buildInstr_encode_tail i
  rw [← hmn, ← hmo, h, hmn', hmo', buildInstr_encode_tail] at hb
  exact (Option.some.inj hb).symm

/-- R97: a fetch whose opcode byte is implemented faults at an operand byte without a cell, or reads the instruction
whose encoding stands at `PC`. -/
theorem fetchInstr_of_implemented {s : State} {b : Byte} {d : Descriptor} (hr : memRead s s.pc = .ok b)
    (hl : lookup extraTable b = .implemented d) :
    65535 < s.pc.toNat + d.length ∧ fetchInstr extraTable s = .error (.memoryOutOfRange 0xFFFF) ∨
    s.pc.toNat + d.length ≤ 65535 ∧ ∃ i, fetchInstr extraTable s = .ok i ∧
      encode i = s.mem.bytesFrom s.pc.toNat d.length := by
  rcases fetchInstr_cases hr extraTable with ⟨hu, -⟩ | ⟨e, hu, -⟩ | ⟨e, hu, hcase⟩ <;> rw [hl] at hu <;> cases hu
  exact hcase.imp_right fun ⟨hle, i, hi, he, _⟩ => ⟨hle, i, hi, he⟩

/-- R92: an instruction whose bytes stand at `PC` is the one fetched. -/
theorem fetchInstr_of_bytesAt {i : Instr} {s : State} (h : BytesAt s s.pc.toNat (encode i)) :
    fetchInstr extraTable s = .ok i := by
  obtain ⟨hfit, hb⟩ := h
  obtain ⟨b, d, he, hl, -, -, hdl⟩ := encode_eq_cons i
  have hm : Config.memSize = 65535 := rfl
  have hr : memRead s s.pc = .ok b := by
    have hx : cellExists s.pc.toNat = true := by
      rw [cellExists_iff]
      rw [he, List.length_cons] at hfit
      omega
    rw [he, List.length_cons, Memory.bytesFrom] at hb
    rw [memRead, if_pos hx, (List.cons.inj hb).1]
  rcases fetchInstr_of_implemented hr hl with ⟨hgt, -⟩ | ⟨-, j, hj, hej⟩
  · omega
  · rw [hdl, hb] at hej
    rw [hj, encode_injective hej]

theorem step_of_running {s : State} (h : s.runState = .running) : step s = runStep extraTable s := by
  rw [step, stepWith, h]

/-- R92: inside a run the instruction whose bytes stand at `PC` is executed. -/
theorem stepIs (i : Instr) (s : State) : StepIs i s := by
  intro hrun hb
  rw [step_of_running hrun, runStep, fetchInstr_of_bytesAt hb]

/-- R97, R164: an implemented opcode so near the top that an operand byte has no cell faults. -/
theorem operandMissing_of_lookup {b : Byte} {d : Descriptor} {pc0 : Word} (hl : lookup extraTable b = .implemented d)
    (hd : 65535 < pc0.toNat + d.length) (s : State) : OperandMissing b s pc0 := by
  rintro hrun rfl hr
  rcases fetchInstr_of_implemented hr hl with ⟨-, hf⟩ | ⟨hle, -⟩
  · rw [step_of_running hrun, runStep, hf]
    rfl
  · omega

end Sys2Proof.Machine

/-! SUPPORT. R110, R111: what a load that has its operand's byte does, and LDA #$nn. -/

namespace Sys2Proof.Safety

open Sys2Proof Sys2Proof.Machine

/-- R110, R29: an LDA form whose operand reads `v` completes with `v`. -/
theorem loadsByte_of_operandValue {i : Instr} {s : State} {v : Byte} (hi : exec i s = load i.operand s)
    (hv : operandValue i.operand s = .ok v) : LoadsByte i s v (BitVec.ofNat 16 i.length) := by
  have hl : load i.operand s = .next (((s.setA v).setZN v).advance i.length) := by
    rw [load, hv]
    rfl
  exact ⟨_, hi.trans hl, rfl, flagsFrom_load hl, rfl, rfl, rfl, rfl, memRead_congr rfl, rfl, rfl⟩

/-- Settles O24: R111, its operand the immediate byte, which needs no access. -/
theorem ldaImmediateRule : Obligations.LdaImmediateRule := by
  intro n s
  have htext : (Instr.ldaImm n).text = "LDA #$" ++ hexByte n := calc
    (Instr.ldaImm n).text = "LDA" ++ (" #$" ++ hexByte n) := rfl
    _ = ("LDA" ++ " #$") ++ hexByte n := String.append_assoc.symm
    _ = "LDA #$" ++ hexByte n := rfl
  exact ⟨rfl, htext, stepIs _ s, rfl, loadsByte_of_operandValue rfl rfl,
    operandMissing_of_lookup (b := 0xA9) rfl (by decide) s⟩

end Sys2Proof.Safety

/-! SUPPORT. R140, R141: what the common ending of TAX and INX does, and the two instructions. -/

namespace Sys2Proof.Safety

open Sys2Proof Sys2Proof.Machine

/-- R140, R141, R29: an instruction that ends as `intoX v` completes with `v` in `X`. -/
theorem putsInX_of_exec {i : Instr} {s : State} {v : Byte} (hi : exec i s = intoX v s) : PutsInX i s v :=
  ⟨((s.setX v).setZN v).advance 1, hi, rfl, flagsFrom_intoX rfl, rfl, rfl, rfl, rfl, memRead_congr rfl, rfl, rfl⟩

/-- Settles O41: R140, the value being `A`. -/
theorem taxRule : Obligations.TaxRule := by
  intro s
  exact ⟨rfl, rfl, stepIs _ s, putsInX_of_exec rfl⟩

/-- Settles O42: R141, the value being `X + 1`, which wraps to 0x00 from 0xFF. -/
theorem inxRule : Obligations.InxRule := by
  intro s
  have hinx : PutsInX .inx s (s.x + 1) := putsInX_of_exec rfl
  refine ⟨rfl, rfl, stepIs _ s, hinx, fun hx => ?_⟩
  have hwrap : s.x + 1 = 0x00 := by
    rw [hx]
    rfl
  rwa [hwrap] at hinx

end Sys2Proof.Safety

/-! SUPPORT. R53, R58: what the table lookup answers, for every admitted value of `EXTRA_OPCODES`. -/

namespace Sys2Proof

open Sys2Proof.Machine Sys2Proof.Safety

/-- R53: in a table with unique keys a byte finds a row exactly when the row has it as its key. -/
theorem findRow_eq_some_iff {t : List Descriptor} (h : keysUnique t = true) {b : Byte} {d : Descriptor} :
    findRow t b = some d ↔ d ∈ t ∧ d.code = b := by
  have hnodup : (t.map (·.code)).Nodup := of_decide_eq_true h
  constructor
  · intro hf
    exact ⟨List.mem_of_find?_eq_some hf, by simpa using List.find?_some hf⟩
  · rintro ⟨hd, rfl⟩
    cases hf : findRow t d.code with
    | none => simpa using List.find?_eq_none.1 hf d hd
    | some e =>
      have he : e.code = d.code := by simpa using List.find?_some hf
      exact congrArg some (List.inj_on_of_nodup_map hnodup (List.mem_of_find?_eq_some hf) hd he)

theorem findRow_eq_none_iff {t : List Descriptor} {b : Byte} : findRow t b = none ↔ ∀ d ∈ t, d.code ≠ b := by
  simp [findRow]

theorem lookup_eq_implemented_iff {extra : List Descriptor} {b : Byte} {d : Descriptor} :
    lookup extra b = .implemented d ↔ findRow opTable b = some d := by
  unfold lookup
  cases findRow opTable b with
  | some e => simp
  | none => cases findRow extra b <;> simp

theorem lookup_eq_unimplemented_iff {extra : List Descriptor} {b : Byte} {d : Descriptor} :
    lookup extra b = .unimplemented d ↔ findRow opTable b = none ∧ findRow extra b = some d := by
  unfold lookup
  cases findRow opTable b with
  | some e => simp
  | none => cases findRow extra b <;> simp

theorem lookup_eq_unrecognised_iff {extra : List Descriptor} {b : Byte} :
    lookup extra b = .unrecognised ↔ findRow opTable b = none ∧ findRow extra b = none := by
  unfold lookup
  cases findRow opTable b with
  | some e => simp
  | none => cases findRow extra b <;> simp

/-- R53, R56, R61: what an admitted value of `EXTRA_OPCODES` is, clause by clause. -/
theorem extraWf_iff {impl extra : List Descriptor} :
    extraWf impl extra = true ↔
      ((∀ d ∈ extra, d.length = 1 + d.mode.operandBytes) ∧ keysUnique extra = true) ∧
      (∀ d ∈ extra, ∀ e ∈ impl, d.code ≠ e.code) ∧ ∀ d ∈ extra, d.mnemonic ≠ .brk := by
  simp [extraWf, tableWf, Descriptor.wf, and_assoc]

/-- R53, R61: every row of the table has the length of its mode. -/
theorem opTable_length {d : Descriptor} (h : d ∈ opTable) : d.length = 1 + d.mode.operandBytes :=
  (by decide : ∀ e ∈ opTable, e.length = 1 + e.mode.operandBytes) d h

theorem opTable_keysUnique : keysUnique opTable = true := by decide

/-- R56: the row of an admitted extra opcode is what its byte looks up. -/
theorem lookup_extra {extra : List Descriptor} (hx : extraWf opTable extra = true) {d : Descriptor} (hd : d ∈ extra) :
    lookup extra d.code = .unimplemented d := by
  obtain ⟨⟨-, hkeys⟩, hdisj, -⟩ := extraWf_iff.1 hx
  exact lookup_eq_unimplemented_iff.2
    ⟨findRow_eq_none_iff.2 fun e he => (hdisj d hd e he).symm, (findRow_eq_some_iff hkeys).2 ⟨hd, rfl⟩⟩

/-- Settles O5: each of the three answers by the search that gives it. -/
theorem lookupIsTotalAndUnique : Obligations.LookupIsTotalAndUnique := by
  intro extra b hx
  obtain ⟨⟨-, hkeys⟩, -, -⟩ := extraWf_iff.1 hx
  refine ⟨fun d => ?_, fun d => ?_, ?_⟩
  · rw [lookup_eq_implemented_iff, findRow_eq_some_iff opTable_keysUnique]
  · constructor
    · intro h
      exact (findRow_eq_some_iff hkeys).1 (lookup_eq_unimplemented_iff.1 h).2
    · rintro ⟨hd, rfl⟩
      exact lookup_extra hx hd
  · rw [lookup_eq_unrecognised_iff, findRow_eq_none_iff, findRow_eq_none_iff]
    exact ⟨fun ⟨ht, he⟩ d hd => hd.elim (ht d) (he d), fun h => ⟨fun d hd => h d (.inl hd), fun d hd => h d (.inr hd)⟩⟩

/-- R55: with no extra opcodes the unrecognised bytes are those outside the eighteen of R54. -/
theorem lookup_extraTable_unrecognised_iff (b : Byte) :
    lookup extraTable b = .unrecognised ↔ b ∉ implementedOpcodes := by
  have hperm : (opTable.map (·.code)).Perm implementedOpcodes := by decide
  have hnone : findRow extraTable b = none := rfl
  rw [lookup_eq_unrecognised_iff, findRow_eq_none_iff, and_iff_left hnone, ← hperm.mem_iff]
  simp

/-- Settles O4: the table and the empty `EXTRA_OPCODES` pass the checks. -/
theorem opcodeTableIsWellFormed : Obligations.OpcodeTableIsWellFormed := by
  refine ⟨?_, rfl, ?_⟩
  · simpa [tableWf, Descriptor.wf, opTable_keysUnique] using fun _ => opTable_length
  · simp [extraWf, tableWf, keysUnique, extraTable, Config.extraOpcodes]

end Sys2Proof

/-! SUPPORT. R50, R52, R54: the decoder on a row's byte and its operand bytes, and the encoder as its inverse. -/

namespace Sys2Proof

open Sys2Proof.Machine

/-- R50, R52: the decoder builds the instruction of an implemented byte's row from the operand bytes after it. -/
theorem decodeWith_row {extra : List Descriptor} {b : Byte} {d : Descriptor} {ops : List Byte} {i : Instr}
    (hl : lookup extra b = .implemented d) (hlen : ops.length = d.length - 1)
    (hb : buildInstr d.mnemonic d.mode ops = some i) (rest : List Byte) :
    decodeWith extra (b :: ops ++ rest) = .ok (i, rest) := by
  simp [decodeWith, hl, ← hlen, hb]

/-- Everything a decoding that completes has found: an implemented byte, its operand bytes, and the rest. -/
theorem decodeWith_ok {extra : List Descriptor} {bytes : List Byte} {i : Instr} {rest : List Byte}
    (h : decodeWith extra bytes = .ok (i, rest)) :
    ∃ b d ops, bytes = b :: ops ++ rest ∧ lookup extra b = .implemented d ∧ ops.length = d.length - 1 ∧
      buildInstr d.mnemonic d.mode ops = some i := by
  cases bytes with
  | nil => cases h
  | cons b tail =>
    cases hl : lookup extra b with
    | unrecognised => simp [decodeWith, hl] at h
    | unimplemented d => simp [decodeWith, hl] at h
    | implemented d =>
      simp only [decodeWith, hl] at h
      split at h
      · cases h
      · rename_i hlen
        split at h
        · rename_i hb
          cases h
          exact ⟨b, d, tail.take (d.length - 1), by simp, hl, List.length_take_of_le (by omega), hb⟩
        · cases h

/-- Settles O2: the encoding is an implemented byte and its operand bytes, which the builder reads back. -/
theorem decodeReadsBackEncode : Obligations.DecodeReadsBackEncode := by
  intro i rest
  obtain ⟨b, d, he, hl, hmn, hmo, hdl⟩ := encode_eq_cons i
  have hb : buildInstr d.mnemonic d.mode (encode i).tail = some i := by
    rw [hmn, hmo, buildInstr_encode_tail]
  rw [he]
  exact decodeWith_row hl (by rw [hdl, List.length_tail]) hb rest

/-- Settles O3: what is built from a row and its operand bytes has them as its encoding. -/
theorem decodedBytesAreTheEncoding : Obligations.DecodedBytesAreTheEncoding := by
  intro bytes i rest h
  obtain ⟨b, d, ops, rfl, hl, hlen, hb⟩ := decodeWith_ok h
  obtain ⟨hd, rfl⟩ := lookup_implemented hl
  obtain ⟨j, hj, hej, -⟩ := buildInstr_row hd ops hlen
  obtain rfl : j = i := Option.some.inj (hj.symm.trans hb)
  rw [hej]

/-- Settles O1: each word is an encoding, with the bytes that follow it. -/
theorem decodedWordsOfTheTable : Obligations.DecodedWordsOfTheTable :=
  ⟨decodeReadsBackEncode .brk [], decodeReadsBackEncode (.ldaImm 0x05) [0xAA], decodeReadsBackEncode (.ldaZpX 0xFF) [],
    decodeReadsBackEncode (.ldaAbs 0x1234) [], decodeReadsBackEncode (.ldaIndY 0x86) [],
    decodeReadsBackEncode (.staAbs 0x0200) [], decodeReadsBackEncode (.staIndX 0xFE) [],
    decodeReadsBackEncode .tax [], decodeReadsBackEncode .inx []⟩

/-- R55: the decoder rejects a byte as unrecognised exactly when its lookup does. -/
theorem decodeWith_unrecognized_iff (extra : List Descriptor) (b : Byte) (rest : List Byte) :
    decodeWith extra (b :: rest) = .error (.unrecognized b) ↔ lookup extra b = .unrecognised := by
  cases hl : lookup extra b with
  | unrecognised => simp [decodeWith, hl]
  | unimplemented d => simp [decodeWith, hl]
  | implemented d =>
    simp only [decodeWith, hl, reduceCtorEq, iff_false]
    split
    · simp
    · split <;> simp

end Sys2Proof

/-! SUPPORT. R30 to R36: the memory primitives on bytes, words and the zero page. -/

namespace Sys2Proof.Machine

open Sys2Proof Sys2Proof.Safety

theorem zext16_toNat (n : Byte) : (zext16 n).toNat = n.toNat := by
  rw [zext16, BitVec.toNat_setWidth]
  omega

/-- R30: a zero-page address has a cell. -/
theorem zext16_ne_top (n : Byte) : zext16 n ≠ 0xFFFF := by
  intro h
  have hn : n.toNat = 65535 := by
    rw [← zext16_toNat, h]
    rfl
  omega

/-- R33: an address other than 0xFFFF is below it. -/
theorem toNat_lt_of_ne_top {addr : Word} (h : addr ≠ 0xFFFF) : addr.toNat < 65535 :=
  (cellExists_iff _).1 ((cellExists_word addr).2 h)

theorem ne_top_of_toNat_lt {addr : Word} (h : addr.toNat < 65535) : addr ≠ 0xFFFF :=
  (cellExists_word addr).1 ((cellExists_iff _).2 h)

/-- R14: below the top an advance does not wrap. -/
theorem add16_ofNat_toNat {addr : Word} {n : Nat} (h : addr.toNat + n ≤ 65535) :
    (add16 addr (BitVec.ofNat 16 n)).toNat = addr.toNat + n := by
  rw [add16, BitVec.toNat_add, BitVec.toNat_ofNat]
  omega

/-- R93: two advances are one. -/
theorem add16_ofNat_ofNat (addr : Word) (m n : Nat) :
    add16 (add16 addr (BitVec.ofNat 16 m)) (BitVec.ofNat 16 n) = add16 addr (BitVec.ofNat 16 (m + n)) := by
  simp only [add16, BitVec.ofNat_add, BitVec.add_assoc]

/-- R31. -/
theorem memRead_cell {s : State} {addr : Word} (h : addr ≠ 0xFFFF) : memRead s addr = .ok (cell s addr) := by
  rw [memRead_eq, if_neg h]
  rfl

/-- R33. -/
theorem memRead_top (s : State) : memRead s 0xFFFF = .error (.memoryOutOfRange 0xFFFF) := by
  rw [memRead_eq, if_pos rfl]

/-- R31, R33: a read that completes has a cell and gives its byte. -/
theorem memRead_ok {s : State} {addr : Word} {b : Byte} (h : memRead s addr = .ok b) :
    addr ≠ 0xFFFF ∧ cell s addr = b := by
  have hne : addr ≠ 0xFFFF := by
    rintro rfl
    rw [memRead_top] at h
    cases h
  rw [memRead_cell hne] at h
  exact ⟨hne, Except.ok.inj h⟩

/-- R34: a word read where both cells exist. -/
theorem memRead16_cells {s : State} {addr : Word} (h : addr.toNat < 0xFFFE) :
    memRead16 s addr = .ok (wordOf (cell s (addr + 1)) (cell s addr)) := by
  have h0 : addr ≠ 0xFFFF := ne_top_of_toNat_lt (by omega)
  have h1 : addr + 1 ≠ 0xFFFF := by
    have hn : (addr + 1).toNat = addr.toNat + 1 := add16_ofNat_toNat (n := 1) (by omega)
    exact ne_top_of_toNat_lt (by omega)
  rw [memRead16, if_neg h0, memRead_cell h0]
  simp only [memRead_cell h1]

/-- R30: the two addresses from which a word has a byte without a cell. -/
theorem eq_of_word_missing {addr : Word} (h : 0xFFFE ≤ addr.toNat) : addr = 0xFFFE ∨ addr = 0xFFFF := by
  rcases Nat.lt_or_ge addr.toNat 0xFFFF with hlt | hge
  · exact .inl (BitVec.eq_of_toNat_eq (by simp; omega))
  · exact .inr (BitVec.eq_of_toNat_eq (by simp; omega))

/-- R34: a word read faults where a cell is missing. -/
theorem memRead16_missing {s : State} {addr : Word} (h : 0xFFFE ≤ addr.toNat) :
    memRead16 s addr = .error (.memoryOutOfRange 0xFFFF) := by
  rcases eq_of_word_missing h with rfl | rfl
  · rw [memRead16, if_neg (by decide), memRead_cell (by decide)]
    rfl
  · rw [memRead16, if_pos rfl]

/-- R35: a word write faults where a cell is missing. -/
theorem memWrite16_missing {s : State} {addr v : Word} (h : 0xFFFE ≤ addr.toNat) :
    memWrite16 s addr v = .error (.memoryOutOfRange 0xFFFF) := by
  rcases eq_of_word_missing h with rfl | rfl
  · rfl
  · rfl

/-- R29: a word's bytes in memory, and every other byte as before. -/
theorem memRead_set_word (s : State) {addr : Word} (lo hi : Byte) (h : addr.toNat < 0xFFFE) :
    let t := s.setMem ((s.mem.set addr.toNat lo).set (addr.toNat + 1) hi)
    memRead t addr = .ok lo ∧ memRead t (addr + 1) = .ok hi ∧
      ∀ b : Word, b ≠ addr → b ≠ addr + 1 → memRead t b = memRead s b := by
  have h0 : addr ≠ 0xFFFF := ne_top_of_toNat_lt (by omega)
  have hn : (addr + 1).toNat = addr.toNat + 1 := add16_ofNat_toNat (n := 1) (by omega)
  have h1 : addr + 1 ≠ 0xFFFF := ne_top_of_toNat_lt (by omega)
  have hne : addr ≠ addr + 1 := fun e => by
    have := congrArg BitVec.toNat e
    omega
  have hset : s.setMem ((s.mem.set addr.toNat lo).set (addr.toNat + 1) hi) =
      (s.setMem (s.mem.set addr.toNat lo)).setMem
        ((s.setMem (s.mem.set addr.toNat lo)).mem.set (addr + 1).toNat hi) := by
    rw [hn]
    rfl
  rw [hset]
  refine ⟨?_, memRead_set_self _ hi h1, fun b hb hb1 => ?_⟩
  · rw [memRead_set_other _ hi hne, memRead_set_self s lo h0]
  · rw [memRead_set_other _ hi hb1, memRead_set_other s lo hb]

theorem sameReads_of_mem {s t : State} (h : t.mem = s.mem) : SameReads s t := memRead_congr h

/-- Settles O9: the two cases of a byte read. -/
theorem byteReadRule : Obligations.ByteReadRule := by
  intro s addr
  refine ⟨memRead_cell, ?_⟩
  rintro rfl
  exact memRead_top s

/-- Settles O10: the two cases of a byte write, the written cell and the others. -/
theorem byteWriteRule : Obligations.ByteWriteRule := by
  intro s addr v
  refine ⟨fun h => ⟨s.setMem (s.mem.set addr.toNat v), by rw [memWrite_eq, if_neg h], memRead_set_self s v h,
    fun b hb => memRead_set_other s v hb, ⟨rfl, rfl, rfl, rfl, rfl⟩, rfl, rfl, rfl⟩, ?_⟩
  rintro rfl
  rw [memWrite_eq, if_pos rfl]

/-- Settles O11: the two cases of a word read. -/
theorem wordReadRule : Obligations.WordReadRule :=
  fun _ _ => ⟨memRead16_cells, memRead16_missing⟩

/-- Settles O12: the two byte writes, and the word read of what they leave. -/
theorem wordWriteRule : Obligations.WordWriteRule := by
  intro s addr v
  refine ⟨fun h => ?_, memWrite16_missing⟩
  obtain ⟨hlo, hhi, hother⟩ := memRead_set_word s (lowByte v) (highByte v) h
  refine ⟨_, memWrite16_eq s addr v ((cellExists_iff _).2 (by omega)), hlo, hhi, ?_, hother,
    ⟨rfl, rfl, rfl, rfl, rfl⟩, rfl, rfl, rfl⟩
  rw [memRead16_cells h, (memRead_ok hlo).2, (memRead_ok hhi).2, wordOf_high_low]

/-- R28: with no cell listed every byte reads 0x00. -/
theorem memRead_of_mem_nil {s : State} (h : s.mem = []) {addr : Word} (ha : addr ≠ 0xFFFF) :
    memRead s addr = .ok 0x00 := by
  rw [memRead_cell ha, cell, h]
  rfl

/-- Settles O7: each field by its definition, memory by the empty list. -/
theorem newAndResetStates : Obligations.NewAndResetStates :=
  ⟨⟨rfl, rfl, rfl, rfl, rfl, rfl, fun _ => memRead_of_mem_nil rfl⟩, resetCall_eq State.new,
    ⟨rfl, rfl, rfl, rfl, rfl, rfl, fun _ => memRead_of_mem_nil rfl⟩⟩

/-- Settles O14: no cell is listed. -/
theorem resetMemoryIsCanonical : Obligations.ResetMemoryIsCanonical := Memory.wf_nil

end Sys2Proof.Machine

/-! SUPPORT. R70 to R82: what each mode resolves to, and where it faults. -/

namespace Sys2Proof.Machine

open Sys2Proof Sys2Proof.Safety

/-- R78, R79: the pointer the zero page holds. -/
theorem pointerAt_zeroPagePointer (s : State) (ptr : Byte) : pointerAt s ptr = .ok (zeroPagePointer s ptr) := by
  simp only [pointerAt_eq, zeroPagePointer, cell, zext16_toNat]
  rfl

/-- R82: a mode whose operand bytes all have cells resolves. -/
theorem resolve_total {mode : Mode} {s : State} (hmode : mode ≠ .noneAddressing)
    (hfit : mode = .immediate ∨ s.pc.toNat + mode.operandBytes ≤ 65535) : ∃ ea, resolve mode s = .ok ea := by
  have hbyte : s.pc.toNat + 1 ≤ 65535 → s.pc ≠ 0xFFFF := fun h => ne_top_of_toNat_lt (by omega)
  have hword : s.pc.toNat + 2 ≤ 65535 → s.pc.toNat < 0xFFFE := fun h => by omega
  cases mode <;> simp only [Mode.operandBytes, reduceCtorEq, false_or] at hfit
  case noneAddressing => exact absurd rfl hmode
  case immediate => exact ⟨_, rfl⟩
  case absolute | absoluteX | absoluteY => simp [resolve, memRead16_cells (hword hfit)]
  all_goals simp [resolve, memRead_cell (hbyte hfit), pointerAt_zeroPagePointer]

/-- R82, R164: a mode that reads an operand byte without a cell faults there. -/
theorem resolve_missing {mode : Mode} {s : State} (hmode : mode ≠ .noneAddressing) (himm : mode ≠ .immediate)
    (hmiss : 65535 < s.pc.toNat + mode.operandBytes) : resolve mode s = .error (.memoryOutOfRange 0xFFFF) := by
  have hbyte : 65535 < s.pc.toNat + 1 → memRead s s.pc = .error (.memoryOutOfRange 0xFFFF) := fun h => by
    rw [BitVec.eq_of_toNat_eq (x := s.pc) (y := 0xFFFF) (by simp; omega), memRead_top]
  have hword : 65535 < s.pc.toNat + 2 → 0xFFFE ≤ s.pc.toNat := fun h => by omega
  cases mode <;> simp only [Mode.operandBytes] at hmiss
  case noneAddressing => exact absurd rfl hmode
  case immediate => exact absurd rfl himm
  case absolute | absoluteX | absoluteY => simp [resolve, memRead16_missing (hword hmiss)]
  all_goals simp [resolve, hbyte hmiss]

/-- Settles O20: the byte at `PC`, if it has a cell. -/
theorem resolveZeroPageRules : Obligations.ResolveZeroPageRules := by
  intro s
  refine ⟨rfl, fun h => ?_, ?_, fun h mode hmode => ?_⟩
  · simp [resolve, memRead_cell h, add8]
  · have hlow (n : Byte) : (zext16 n).toNat < 0x0100 := by rw [zext16_toNat]; omega
    intro mode ea hmode hr
    cases hop : memRead s s.pc with
    | error f => rcases hmode with rfl | rfl | rfl <;> simp [resolve, hop] at hr
    | ok op =>
      rcases hmode with rfl | rfl | rfl <;> simp only [resolve, hop, Except.ok.injEq] at hr <;> exact hr ▸ hlow _
  · have hmiss : 65535 < s.pc.toNat + 1 := by rw [h]; decide
    rcases hmode with rfl | rfl | rfl <;> exact resolve_missing nofun nofun hmiss

/-- Settles O21: the word at `PC`, if both of its bytes have cells. -/
theorem resolveAbsoluteRules : Obligations.ResolveAbsoluteRules := by
  intro s
  refine ⟨fun h => ?_, fun h mode hmode => ?_⟩
  · simp [resolve, memRead16_cells h, add16]
  · have hmiss : 65535 < s.pc.toNat + 2 := by omega
    rcases hmode with rfl | rfl | rfl <;> exact resolve_missing nofun nofun hmiss

/-- Settles O22: the pointer byte at `PC`, if it has a cell. -/
theorem resolveIndirectRules : Obligations.ResolveIndirectRules := by
  intro s
  refine ⟨fun h => ?_, fun h => ?_, rfl⟩
  · simp [resolve, memRead_cell h, pointerAt_zeroPagePointer, add8, add16]
  · have hmiss : 65535 < s.pc.toNat + 1 := by rw [h]; decide
    exact ⟨resolve_missing nofun nofun hmiss, resolve_missing nofun nofun hmiss⟩

/-- R82 (a): the resolver reads `PC`, `X`, `Y` and memory alone. -/
theorem resolve_congr {s t : State} (hpc : t.pc = s.pc) (hx : t.x = s.x) (hy : t.y = s.y) (hm : SameReads s t)
    (mode : Mode) : resolve mode t = resolve mode s := by
  have hm : ∀ addr, memRead t addr = memRead s addr := hm
  cases mode <;> simp only [resolve, memRead16, pointerAt, hpc, hx, hy, hm]

/-- Settles O23: the resolver's reads, and where they fault. -/
theorem resolverDependsAndFaults : Obligations.ResolverDependsAndFaults := by
  refine ⟨fun mode s t hpc hx hy hm => resolve_congr hpc hx hy hm mode, fun mode s f hmode hf => ?_⟩
  have hresolves : ¬(mode = .immediate ∨ s.pc.toNat + mode.operandBytes ≤ 65535) := fun hfit => by
    obtain ⟨ea, hea⟩ := resolve_total hmode hfit
    rw [hea] at hf
    cases hf
  obtain ⟨himm, hmiss⟩ := not_or.1 hresolves
  rw [resolve_missing hmode himm (by omega)] at hf
  refine ⟨(Except.error.inj hf).symm, ?_⟩
  have hbytes : mode.operandBytes ≤ 2 := by cases mode <;> decide
  rcases eq_of_word_missing (addr := s.pc) (by omega) with h | h
  · rw [h] at hmiss
    exact .inr ⟨h, by simp at hmiss; omega⟩
  · exact .inl h

end Sys2Proof.Machine

/-! SUPPORT. R92, R97: which instruction a step fetches, and how a step of a run ends. -/

namespace Sys2Proof.Machine

open Sys2Proof Sys2Proof.Safety

theorem encode_length (i : Instr) : (encode i).length = i.length := (tableRow_of_instr i).1

/-- R61: every instruction has its opcode byte. -/
theorem one_le_length (i : Instr) : 1 ≤ i.length := Nat.le_add_right 1 _

/-- Bytes stand at an address when the first is in its cell and the others stand after it. -/
theorem bytesAt_cons_iff {s : State} {a : Nat} {b : Byte} {bs : List Byte} :
    BytesAt s a (b :: bs) ↔ s.mem.get a = b ∧ BytesAt s (a + 1) bs := by
  simp only [BytesAt, List.length_cons, Memory.bytesFrom, List.cons.injEq, Nat.add_assoc, Nat.add_comm 1]
  exact ⟨fun ⟨hfit, hb, hbs⟩ => ⟨hb, hfit, hbs⟩, fun ⟨hb, hfit, hbs⟩ => ⟨hfit, hb, hbs⟩⟩

theorem memRead_of_bytesAt_cons {s : State} {addr : Word} {b : Byte} {bs : List Byte}
    (h : BytesAt s addr.toNat (b :: bs)) : memRead s addr = .ok b := by
  obtain ⟨hb, hfit, -⟩ := bytesAt_cons_iff.1 h
  have hm : Config.memSize = 65535 := rfl
  rw [memRead_cell (ne_top_of_toNat_lt (by omega)), cell, hb]

/-- R92: an instruction is fetched exactly when its bytes stand at `PC`. -/
theorem fetchInstr_eq_ok_iff {s : State} {i : Instr} :
    fetchInstr extraTable s = .ok i ↔ BytesAt s s.pc.toNat (encode i) := by
  refine ⟨fun h => ?_, fetchInstr_of_bytesAt⟩
  obtain ⟨b, d, -, -, hr, hl, -, -⟩ := fetchInstr_ok h
  rcases fetchInstr_of_implemented hr hl with ⟨-, hf⟩ | ⟨hle, j, hj, hej⟩
  · rw [hf] at h
    cases h
  · obtain rfl : j = i := Except.ok.inj (hj.symm.trans h)
    rw [hej, BytesAt, Memory.bytesFrom_length]
    exact ⟨hle, rfl⟩

theorem stepWith_of_running {s : State} (h : s.runState = .running) (extra : List Descriptor) :
    stepWith extra s = runStep extra s := by
  rw [stepWith, h]

/-- Everything a step that completes does: inside a run it executes the instruction at `PC`; outside it the host waits
or its next call completes. -/
theorem step_next {s t : State} (h : step s = .next t) :
    (s.runState = .running ∧ ∃ i, BytesAt s s.pc.toNat (encode i) ∧ exec i s = .next t) ∨
    (HostMayAct s ∧
      (s.calls = [] ∧ t = s ∨ ∃ c rest, s.calls = c :: rest ∧ hostCall c (s.setCalls rest) = .next t)) := by
  rcases stepWith_next h with ⟨hrun, i, hi, he⟩ | ⟨hhost, ht⟩
  · exact .inl ⟨hrun, i, fetchInstr_eq_ok_iff.1 hi, he⟩
  · exact .inr ⟨hhost, hostTurn_next ht⟩

/-- R189: the two control states in which the host may act are outside a run. -/
theorem not_running_of_hostMayAct {s : State} (h : HostMayAct s) : s.runState ≠ .running := by
  rcases h with h | h <;> simp [h]

/-- A step of a run that completes executes the instruction at `PC`. -/
theorem step_next_of_running {s t : State} (hrun : s.runState = .running) (h : step s = .next t) :
    ∃ i, BytesAt s s.pc.toNat (encode i) ∧ exec i s = .next t := by
  rcases step_next h with ⟨-, hi⟩ | ⟨hhost, -⟩
  · exact hi
  · exact absurd hrun (not_running_of_hostMayAct hhost)

/-- R97, R164: an executed instruction completes or its data access is out of range. -/
theorem exec_outcomes (i : Instr) (s : State) :
    (∃ t, exec i s = .next t) ∨ exec i s = .fault (.memoryOutOfRange 0xFFFF) := by
  cases h : exec i s with
  | next t => exact .inl ⟨t, rfl⟩
  | fault f => exact .inr (congrArg _ (exec_fault h).1)
  | refused r => exact absurd h (exec_not_refused i s r)

/-- R166: how a step of a run ends once its opcode byte is read, by whether the byte is one of the eighteen. -/
theorem step_of_opcode {s : State} {b : Byte} (hrun : s.runState = .running) (hr : memRead s s.pc = .ok b) :
    (b ∉ implementedOpcodes ∧ step s = .fault (.unrecognizedOpcode b s.pc)) ∨
    (b ∈ implementedOpcodes ∧ ((∃ t, step s = .next t) ∨ step s = .fault (.memoryOutOfRange 0xFFFF))) := by
  have hin {d : Descriptor} (hl : lookup extraTable b = .implemented d) : b ∈ implementedOpcodes := by
    by_contra hb
    rw [(lookup_extraTable_unrecognised_iff b).2 hb] at hl
    cases hl
  rw [step_of_running hrun, runStep]
  rcases fetchInstr_cases hr extraTable with ⟨hl, hf⟩ | ⟨d, hl, -⟩ | ⟨d, hl, ⟨-, hf⟩ | ⟨-, i, hi, -⟩⟩
  · rw [hf]
    exact .inl ⟨(lookup_extraTable_unrecognised_iff b).1 hl, rfl⟩
  · exact absurd hl (lookup_extraTable b d)
  · rw [hf]
    exact .inr ⟨hin hl, .inr rfl⟩
  · rw [hi]
    exact .inr ⟨hin hl, exec_outcomes i s⟩

/-- Settles O6: the decoder and the step both go by the lookup. -/
theorem unrecognizedOpcodesFault : Obligations.UnrecognizedOpcodesFault := by
  refine ⟨fun b rest => ?_, fun s b hrun hr => ?_⟩
  · rw [decode, decodeWith_unrecognized_iff, lookup_extraTable_unrecognised_iff]
  · rcases step_of_opcode hrun hr with ⟨hb, hf⟩ | ⟨hb, ⟨t, ht⟩ | hf⟩
    · simp [hb, hf]
    · simp [hb, ht]
    · simp [hb, hf]

/-- Settles O47: the opcode byte has no cell, or the step ends as its byte says. -/
theorem runningStepOutcomes : Obligations.RunningStepOutcomes := by
  intro s hrun
  have htop : s.pc = 0xFFFF → step s = .fault (.memoryOutOfRange 0xFFFF) := fun h => by
    rw [step_of_running hrun, runStep, fetchInstr, h, memRead_top]
    rfl
  refine ⟨htop, ?_⟩
  by_cases hpc : s.pc = 0xFFFF
  · exact .inr (.inl (htop hpc))
  · rcases step_of_opcode hrun (memRead_cell hpc) with ⟨-, hf⟩ | ⟨-, ⟨t, ht⟩ | hf⟩
    · exact .inr (.inr ⟨_, memRead_cell hpc, hf⟩)
    · exact .inl ⟨t, ht⟩
    · exact .inr (.inl hf)

/-- The bytes from an address up, in two parts. -/
theorem Memory.bytesFrom_add (m : Memory) (a n k : Nat) :
    m.bytesFrom a (n + k) = m.bytesFrom a n ++ m.bytesFrom (a + n) k := by
  induction n generalizing a with
  | zero => simp [Memory.bytesFrom]
  | succ n ih => simp [Memory.bytesFrom, Nat.add_right_comm n 1 k, ih, Nat.add_assoc, Nat.add_comm 1]

/-- Settles O45: what decodes begins with the encoding, which so stands at `PC`. -/
theorem stepRunsTheDecodedInstruction : Obligations.StepRunsTheDecodedInstruction := by
  intro s n i rest hrun hd hfit
  have hbytes := decodedBytesAreTheEncoding _ _ _ hd
  have hn : n = (encode i).length + rest.length := by
    simpa [Memory.bytesFrom_length] using congrArg List.length hbytes
  rw [hn, Memory.bytesFrom_add] at hbytes
  have hprefix := (List.append_inj hbytes (Memory.bytesFrom_length ..)).1
  exact stepIs i s hrun ⟨by rwa [encode_length], hprefix⟩

end Sys2Proof.Machine

/-! SUPPORT. R29, R93: what an executed instruction does to each part of the state. -/

namespace Sys2Proof.Machine

open Sys2Proof Sys2Proof.Safety

/-- R93: `PC` advances by the length. -/
theorem exec_pc {i : Instr} {s t : State} (h : exec i s = .next t) :
    t.pc = add16 s.pc (BitVec.ofNat 16 i.length) := by
  rcases exec_next h with ⟨-, v, -, rfl⟩ | ⟨-, ea, -, -, rfl⟩ | ⟨rfl, rfl⟩ | ⟨rfl, rfl⟩ | ⟨rfl, rfl⟩ <;> rfl

/-- R13: no instruction writes `Y`. -/
theorem exec_y {i : Instr} {s t : State} (h : exec i s = .next t) : t.y = s.y := by
  rcases exec_next h with ⟨-, v, -, rfl⟩ | ⟨-, ea, -, -, rfl⟩ | ⟨-, rfl⟩ | ⟨-, rfl⟩ | ⟨-, rfl⟩ <;> rfl

/-- R95: BRK halts, and no other instruction writes RunState. -/
theorem exec_runState {i : Instr} {s t : State} (h : exec i s = .next t) :
    (i = .brk ∧ t.runState = .halted) ∨ (i ≠ .brk ∧ t.runState = s.runState) := by
  rcases exec_next h with ⟨hm, v, -, rfl⟩ | ⟨hm, ea, -, -, rfl⟩ | ⟨rfl, rfl⟩ | ⟨rfl, rfl⟩ | ⟨rfl, rfl⟩
  · refine .inr ⟨?_, rfl⟩
    rintro rfl
    cases hm
  · refine .inr ⟨?_, rfl⟩
    rintro rfl
    cases hm
  · exact .inr ⟨nofun, rfl⟩
  · exact .inr ⟨nofun, rfl⟩
  · exact .inl ⟨rfl, rfl⟩

/-- R24, R29: a STA writes `A` into the cell at its address, and no other instruction writes memory. -/
theorem exec_mem {i : Instr} {s t : State} (h : exec i s = .next t) :
    (i.mnemonic = .sta ∧ ∃ ea, operandAddress i.operand s = .ok ea ∧ ea ≠ 0xFFFF ∧ t.mem = s.mem.set ea.toNat s.a) ∨
    t.mem = s.mem := by
  rcases exec_next h with ⟨-, v, -, rfl⟩ | ⟨hm, ea, hea, hne, rfl⟩ | ⟨-, rfl⟩ | ⟨-, rfl⟩ | ⟨-, rfl⟩
  · exact .inr rfl
  · exact .inl ⟨hm, ea, hea, hne, rfl⟩
  all_goals exact .inr rfl

/-- R23: `P` after an instruction has Zero and Negative from one byte, or is as before. -/
theorem exec_p {i : Instr} {s t : State} (h : exec i s = .next t) : (∃ v, FlagsFrom s t v) ∨ t.p = s.p := by
  obtain ⟨hlda, hx, hkeep⟩ := exec_flags h
  rcases exec_shape i s with ⟨hm, -⟩ | ⟨hm, -⟩ | ⟨hi, -⟩ | ⟨hi, -⟩ | ⟨hi, -⟩
  · exact .inl ⟨_, hlda hm⟩
  · exact .inr (hkeep (.inl hm))
  · exact .inl ⟨_, hx (.inl hi)⟩
  · exact .inl ⟨_, hx (.inr hi)⟩
  · exact .inr (hkeep (.inr hi))

/-- R17, R18, R19, R21, R22: no instruction writes another flag or a bit of `P` without a name. -/
theorem exec_keeps_other_flags {i : Instr} {s t : State} (h : exec i s = .next t) :
    (∀ f : Flag, f ≠ .z → f ≠ .n → t.flag f = s.flag f) ∧ SameSpares s t := by
  rcases exec_p h with ⟨v, -, -, hkeep⟩ | hp
  · exact hkeep
  · exact ⟨fun f _ _ => by rw [State.flag, hp, State.flag], by rw [hp], by rw [hp]⟩

theorem exec_of_lda {i : Instr} (h : i.mnemonic = .lda) (s : State) : exec i s = load i.operand s := by
  cases i <;> cases h <;> rfl

theorem exec_of_sta {i : Instr} (h : i.mnemonic = .sta) (s : State) : exec i s = store i.operand s := by
  cases i <;> cases h <;> rfl

/-- Settles O32: everything a completed load does. -/
theorem ldaFrame : Obligations.LdaFrame := by
  intro i s t hm h
  obtain ⟨hother, hspares⟩ := exec_keeps_other_flags h
  rw [exec_of_lda hm] at h
  obtain ⟨v, -, rfl⟩ := load_next h
  exact ⟨rfl, rfl, hother, hspares, rfl, sameReads_of_mem rfl, rfl, rfl⟩

/-- Settles O40: everything a completed store does. -/
theorem staFrame : Obligations.StaFrame := by
  intro i s t hm h
  rw [exec_of_sta hm] at h
  obtain ⟨ea, hea, -, rfl⟩ := store_next h
  refine ⟨rfl, rfl, rfl, rfl, rfl, ⟨rfl, rfl⟩, fun ea' hea' b hb => ?_⟩
  obtain rfl : ea = ea' := Except.ok.inj (hea.symm.trans hea')
  exact memRead_set_other s s.a hb

/-- Settles O43: everything the common ending of TAX and INX does. -/
theorem taxInxFrame : Obligations.TaxInxFrame := by
  intro i s t hi h
  obtain ⟨hother, hspares⟩ := exec_keeps_other_flags h
  rcases hi with rfl | rfl <;> obtain rfl := Host.Outcome.next.inj h <;>
    exact ⟨rfl, rfl, hother, hspares, rfl, sameReads_of_mem rfl, rfl, rfl⟩

/-- Settles O46: the fetched instruction, its bytes below 0xFFFF. -/
theorem pcAdvancesByTheLength : Obligations.PcAdvancesByTheLength := by
  intro s t hrun h
  obtain ⟨i, hb, he⟩ := step_next_of_running hrun h
  have hfit : s.pc.toNat + i.length ≤ 65535 := by
    rw [← encode_length]
    exact hb.1
  have hpc : t.pc.toNat = s.pc.toNat + i.length := by
    rw [exec_pc he, add16_ofNat_toNat hfit]
  exact ⟨i, hb, he, hpc, by omega⟩

/-- Settles O49: the fetched instruction, and what it does to memory. -/
theorem onlyStoresWriteMemory : Obligations.OnlyStoresWriteMemory := by
  intro s t hrun h
  obtain ⟨i, hb, he⟩ := step_next_of_running hrun h
  rcases exec_mem he with ⟨hm, ea, hea, hne, hmem⟩ | hmem
  · have hreads : SameReads (s.setMem (s.mem.set ea.toNat s.a)) t := sameReads_of_mem hmem
    refine .inr ⟨i, ea, hb, hm, hea, ?_, fun b hne' => ?_⟩
    · rw [hreads, memRead_set_self s s.a hne]
    · rw [hreads, memRead_set_other s s.a hne']
  · exact .inl (sameReads_of_mem hmem)

/-- Settles O44: the halt, and the one byte 0x00 as BRK's encoding. -/
theorem brkRule : Obligations.BrkRule := by
  intro s
  refine ⟨rfl, rfl, (s.advance 1).halt, rfl, rfl, rfl, rfl, rfl, rfl, rfl, sameReads_of_mem rfl, ⟨rfl, rfl⟩,
    fun hrun hr => ?_⟩
  obtain ⟨hpc, hb⟩ := memRead_ok hr
  exact stepIs .brk s hrun ⟨toNat_lt_of_ne_top hpc, congrArg (fun b => [b]) hb⟩

end Sys2Proof.Machine

/-! SUPPORT. R59: the assembler text of a mnemonic before each form of operand. -/

namespace Sys2Proof

theorem hexWord_wordOf (hh ll : Byte) : hexWord (wordOf hh ll) = hexByte hh ++ hexByte ll := by
  rw [hexWord, highByte_wordOf, lowByte_wordOf]

theorem append_text_zeroPage (m : String) (n : Byte) : m ++ (Operand.zeroPage n).text = m ++ " $" ++ hexByte n :=
  String.append_assoc.symm

theorem append_text_zeroPageX (m : String) (n : Byte) :
    m ++ (Operand.zeroPageX n).text = m ++ " $" ++ hexByte n ++ ",X" := by
  simp only [Operand.text, String.append_assoc]

theorem append_text_absolute (m : String) (hh ll : Byte) :
    m ++ (Operand.absolute (wordOf hh ll)).text = m ++ " $" ++ (hexByte hh ++ hexByte ll) := by
  simp only [Operand.text, hexWord_wordOf, String.append_assoc]

theorem append_text_absoluteX (m : String) (hh ll : Byte) :
    m ++ (Operand.absoluteX (wordOf hh ll)).text = m ++ " $" ++ (hexByte hh ++ hexByte ll) ++ ",X" := by
  simp only [Operand.text, hexWord_wordOf, String.append_assoc]

theorem append_text_absoluteY (m : String) (hh ll : Byte) :
    m ++ (Operand.absoluteY (wordOf hh ll)).text = m ++ " $" ++ (hexByte hh ++ hexByte ll) ++ ",Y" := by
  simp only [Operand.text, hexWord_wordOf, String.append_assoc]

theorem append_text_indirectX (m : String) (n : Byte) :
    m ++ (Operand.indirectX n).text = m ++ " ($" ++ hexByte n ++ ",X)" := by
  simp only [Operand.text, String.append_assoc]

theorem append_text_indirectY (m : String) (n : Byte) :
    m ++ (Operand.indirectY n).text = m ++ " ($" ++ hexByte n ++ "),Y" := by
  simp only [Operand.text, String.append_assoc]

theorem encode_word (b hh ll : Byte) : [b, lowByte (wordOf hh ll), highByte (wordOf hh ll)] = [b, ll, hh] := by
  rw [lowByte_wordOf, highByte_wordOf]

end Sys2Proof

/-! SUPPORT. R110, R120, R164: what a load and a store do at their effective address, and where they fault. -/

namespace Sys2Proof.Safety

open Sys2Proof Sys2Proof.Machine

/-- R110: an operand that is not immediate gives the byte at its effective address. -/
theorem operandValue_of_address {o : Operand} {s : State} {ea : Word} (ho : o.mode ≠ .immediate)
    (hea : operandAddress o s = .ok ea) : operandValue o s = memRead s ea := by
  cases o
  case immediate n => exact absurd rfl ho
  all_goals simp only [operandValue, hea]

/-- R110, R164: an LDA form loads the byte at its effective address, and faults where that is 0xFFFF. -/
theorem lda_at_address {i : Instr} {s : State} {ea : Word} (hi : i.mnemonic = .lda)
    (ho : i.operand.mode ≠ .immediate) (hea : operandAddress i.operand s = .ok ea) :
    (ea ≠ 0xFFFF → LoadsByte i s (cell s ea) (BitVec.ofNat 16 i.length)) ∧ (ea = 0xFFFF → AccessFaults i s) := by
  have hv := operandValue_of_address ho hea
  refine ⟨fun hne => ?_, ?_⟩
  · exact loadsByte_of_operandValue (exec_of_lda hi s) (hv.trans (memRead_cell hne))
  · rintro rfl
    rw [AccessFaults, exec_of_lda hi, load, hv, memRead_top]
    rfl

/-- R120: a store at an address with a cell. -/
theorem store_at {o : Operand} {s : State} {ea : Word} (hea : operandAddress o s = .ok ea) (hne : ea ≠ 0xFFFF) :
    store o s = .next ((s.setMem (s.mem.set ea.toNat s.a)).advance o.length) := by
  simp only [store, hea, memWrite_eq, if_neg hne]

/-- R164: a store at the address without a cell. -/
theorem store_at_top {o : Operand} {s : State} (hea : operandAddress o s = .ok 0xFFFF) :
    store o s = raise (.memoryOutOfRange 0xFFFF) := by
  simp only [store, hea, memWrite_eq, if_true]

/-- R120, R164: a STA form stores `A` at its effective address, and faults where that is 0xFFFF. -/
theorem sta_at_address {i : Instr} {s : State} {ea : Word} (hi : i.mnemonic = .sta)
    (hea : operandAddress i.operand s = .ok ea) :
    (ea ≠ 0xFFFF → StoresAt i s ea (BitVec.ofNat 16 i.length)) ∧ (ea = 0xFFFF → AccessFaults i s) := by
  refine ⟨fun hne => ⟨(s.setMem (s.mem.set ea.toNat s.a)).advance i.length, ?_, memRead_set_self s s.a hne,
    fun b hb => memRead_set_other s s.a hb, rfl, rfl, rfl, rfl, rfl, rfl, rfl, rfl⟩, ?_⟩
  · exact (exec_of_sta hi s).trans (store_at hea hne)
  · rintro rfl
    exact (exec_of_sta hi s).trans (store_at_top hea)

/-- R117, R126: the effective address of the two indirect forms is read from the zero page. -/
theorem operandAddress_indirectX (n : Byte) (s : State) :
    operandAddress (.indirectX n) s = .ok (zeroPagePointer s (n + s.x)) :=
  pointerAt_zeroPagePointer s (n + s.x)

theorem operandAddress_indirectY (n : Byte) (s : State) :
    operandAddress (.indirectY n) s = .ok (zeroPagePointer s n + zext16 s.y) := by
  simp only [operandAddress, pointerAt_zeroPagePointer, add16]

/-- R164: an implemented opcode with two operand bytes at the two highest addresses where one has no cell. -/
theorem operandMissing_word {b : Byte} {d : Descriptor} (hl : lookup extraTable b = .implemented d)
    (hd : d.length = 3) (s : State) : OperandMissing b s 0xFFFD ∧ OperandMissing b s 0xFFFE :=
  ⟨operandMissing_of_lookup hl (by rw [hd]; decide) s, operandMissing_of_lookup hl (by rw [hd]; decide) s⟩

/-- Settles O25: its address is the operand byte, which has a cell. -/
theorem ldaZeroPageRule : Obligations.LdaZeroPageRule := by
  intro n s
  obtain ⟨hload, -⟩ := lda_at_address (i := .ldaZp n) (s := s) rfl nofun rfl
  exact ⟨rfl, append_text_zeroPage "LDA" n, stepIs _ s, hload (zext16_ne_top _),
    operandMissing_of_lookup (b := 0xA5) rfl (by decide) s⟩

/-- Settles O26: its address is the operand byte plus `X` in the zero page, which has a cell. -/
theorem ldaZeroPageXRule : Obligations.LdaZeroPageXRule := by
  intro n s
  obtain ⟨hload, -⟩ := lda_at_address (i := .ldaZpX n) (s := s) rfl nofun rfl
  exact ⟨rfl, append_text_zeroPageX "LDA" n, stepIs _ s, hload (zext16_ne_top _),
    operandMissing_of_lookup (b := 0xB5) rfl (by decide) s⟩

/-- Settles O27: its address is the operand word. -/
theorem ldaAbsoluteRule : Obligations.LdaAbsoluteRule := by
  intro ll hh s
  obtain ⟨hload, hfault⟩ := lda_at_address (i := .ldaAbs (wordOf hh ll)) (s := s) rfl nofun rfl
  exact ⟨encode_word 0xAD hh ll, append_text_absolute "LDA" hh ll, stepIs _ s, hload, hfault,
    operandMissing_word (b := 0xAD) rfl rfl s⟩

/-- Settles O28: its address is the operand word plus `X`. -/
theorem ldaAbsoluteXRule : Obligations.LdaAbsoluteXRule := by
  intro ll hh s
  obtain ⟨hload, hfault⟩ := lda_at_address (i := .ldaAbsX (wordOf hh ll)) (s := s) rfl nofun rfl
  exact ⟨encode_word 0xBD hh ll, append_text_absoluteX "LDA" hh ll, stepIs _ s, hload, hfault,
    operandMissing_word (b := 0xBD) rfl rfl s⟩

/-- Settles O29: its address is the operand word plus `Y`. -/
theorem ldaAbsoluteYRule : Obligations.LdaAbsoluteYRule := by
  intro ll hh s
  obtain ⟨hload, hfault⟩ := lda_at_address (i := .ldaAbsY (wordOf hh ll)) (s := s) rfl nofun rfl
  exact ⟨encode_word 0xB9 hh ll, append_text_absoluteY "LDA" hh ll, stepIs _ s, hload, hfault,
    operandMissing_word (b := 0xB9) rfl rfl s⟩

/-- Settles O30: its address is the pointer at the operand byte plus `X`. -/
theorem ldaIndirectXRule : Obligations.LdaIndirectXRule := by
  intro n s
  obtain ⟨hload, hfault⟩ := lda_at_address (i := .ldaIndX n) rfl nofun (operandAddress_indirectX n s)
  exact ⟨rfl, append_text_indirectX "LDA" n, stepIs _ s, hload, hfault,
    operandMissing_of_lookup (b := 0xA1) rfl (by decide) s⟩

/-- Settles O31: its address is the pointer at the operand byte, plus `Y`. -/
theorem ldaIndirectYRule : Obligations.LdaIndirectYRule := by
  intro n s
  obtain ⟨hload, hfault⟩ := lda_at_address (i := .ldaIndY n) rfl nofun (operandAddress_indirectY n s)
  exact ⟨rfl, append_text_indirectY "LDA" n, stepIs _ s, hload, hfault,
    operandMissing_of_lookup (b := 0xB1) rfl (by decide) s⟩

/-- Settles O33: its address is the operand byte, which has a cell. -/
theorem staZeroPageRule : Obligations.StaZeroPageRule := by
  intro n s
  obtain ⟨hstore, -⟩ := sta_at_address (i := .staZp n) (s := s) rfl rfl
  exact ⟨rfl, append_text_zeroPage "STA" n, stepIs _ s, hstore (zext16_ne_top _),
    operandMissing_of_lookup (b := 0x85) rfl (by decide) s⟩

/-- Settles O34: its address is the operand byte plus `X` in the zero page, which has a cell. -/
theorem staZeroPageXRule : Obligations.StaZeroPageXRule := by
  intro n s
  obtain ⟨hstore, -⟩ := sta_at_address (i := .staZpX n) (s := s) rfl rfl
  exact ⟨rfl, append_text_zeroPageX "STA" n, stepIs _ s, hstore (zext16_ne_top _),
    operandMissing_of_lookup (b := 0x95) rfl (by decide) s⟩

/-- Settles O35: its address is the operand word. -/
theorem staAbsoluteRule : Obligations.StaAbsoluteRule := by
  intro ll hh s
  obtain ⟨hstore, hfault⟩ := sta_at_address (i := .staAbs (wordOf hh ll)) (s := s) rfl rfl
  exact ⟨encode_word 0x8D hh ll, append_text_absolute "STA" hh ll, stepIs _ s, hstore, hfault,
    operandMissing_word (b := 0x8D) rfl rfl s⟩

/-- Settles O36: its address is the operand word plus `X`. -/
theorem staAbsoluteXRule : Obligations.StaAbsoluteXRule := by
  intro ll hh s
  obtain ⟨hstore, hfault⟩ := sta_at_address (i := .staAbsX (wordOf hh ll)) (s := s) rfl rfl
  exact ⟨encode_word 0x9D hh ll, append_text_absoluteX "STA" hh ll, stepIs _ s, hstore, hfault,
    operandMissing_word (b := 0x9D) rfl rfl s⟩

/-- Settles O37: its address is the operand word plus `Y`. -/
theorem staAbsoluteYRule : Obligations.StaAbsoluteYRule := by
  intro ll hh s
  obtain ⟨hstore, hfault⟩ := sta_at_address (i := .staAbsY (wordOf hh ll)) (s := s) rfl rfl
  exact ⟨encode_word 0x99 hh ll, append_text_absoluteY "STA" hh ll, stepIs _ s, hstore, hfault,
    operandMissing_word (b := 0x99) rfl rfl s⟩

/-- Settles O38: its address is the pointer at the operand byte plus `X`. -/
theorem staIndirectXRule : Obligations.StaIndirectXRule := by
  intro n s
  obtain ⟨hstore, hfault⟩ := sta_at_address (i := .staIndX n) rfl (operandAddress_indirectX n s)
  exact ⟨rfl, append_text_indirectX "STA" n, stepIs _ s, hstore, hfault,
    operandMissing_of_lookup (b := 0x81) rfl (by decide) s⟩

/-- Settles O39: its address is the pointer at the operand byte, plus `Y`. -/
theorem staIndirectYRule : Obligations.StaIndirectYRule := by
  intro n s
  obtain ⟨hstore, hfault⟩ := sta_at_address (i := .staIndY n) rfl (operandAddress_indirectY n s)
  exact ⟨rfl, append_text_indirectY "STA" n, stepIs _ s, hstore, hfault,
    operandMissing_of_lookup (b := 0x91) rfl (by decide) s⟩

end Sys2Proof.Safety

/-! SUPPORT. R92: the lines of the spec's `Step()`, and the machine's fetch and `exec` against them. -/

namespace Sys2Proof

/-- R51, R52: an operand's bytes, in memory order. -/
def Operand.bytes : Operand → List Byte
  | .immediate n | .zeroPage n | .zeroPageX n | .zeroPageY n | .indirectX n | .indirectY n => [n]
  | .absolute a | .absoluteX a | .absoluteY a => [lowByte a, highByte a]
  | .noneAddressing => []

theorem encode_tail (i : Instr) : (encode i).tail = i.operand.bytes := by cases i <;> rfl

/-- An instruction with a handler for memory has a mode with an operand (R54). -/
theorem mode_of_memory {i : Instr} (h : i.mnemonic = .lda ∨ i.mnemonic = .sta) :
    i.operand.mode ≠ .noneAddressing := by
  cases i <;> simp [Instr.mnemonic, Instr.operand, Operand.mode] at h ⊢

/-- R57: BRK's row has no operand. -/
theorem mode_of_brk_row {d : Descriptor} (h : d ∈ opTable) : d.mnemonic = .brk → d.mode = .noneAddressing :=
  (by decide : ∀ e ∈ opTable, e.mnemonic = .brk → e.mode = .noneAddressing) d h

/-- R54: the one row with an immediate operand is LDA's. -/
theorem mnemonic_of_immediate_row {d : Descriptor} (h : d ∈ opTable) : d.mode = .immediate → d.mnemonic = .lda :=
  (by decide : ∀ e ∈ opTable, e.mode = .immediate → e.mnemonic = .lda) d h

end Sys2Proof

namespace Sys2Proof.Machine

open Sys2Proof Sys2Proof.Safety

/-! ## The resolver on an instruction's own operand bytes -/

theorem memRead16_of_bytesAt {s : State} {addr a : Word} (h : BytesAt s addr.toNat [lowByte a, highByte a]) :
    memRead16 s addr = .ok a := by
  obtain ⟨hlo, h1⟩ := bytesAt_cons_iff.1 h
  obtain ⟨hhi, hfit, -⟩ := bytesAt_cons_iff.1 h1
  have hm : Config.memSize = 65535 := rfl
  have hn : (addr + 1).toNat = addr.toNat + 1 := add16_ofNat_toNat (n := 1) (by omega)
  rw [memRead16_cells (by omega), cell, cell, hn, hlo, hhi, wordOf_high_low]

/-- R52, R70: just past the opcode byte the resolver finds the address of the operand whose bytes stand there. -/
theorem resolve_of_bytesAt {o : Operand} {s : State} (h : BytesAt (s.advance 1) (s.advance 1).pc.toNat o.bytes) :
    resolve o.mode (s.advance 1) = operandAddress o s := by
  cases o
  case immediate n => rfl
  case noneAddressing => rfl
  case absolute a | absoluteX a | absoluteY a =>
    simp only [resolve, Operand.mode, operandAddress, memRead16_of_bytesAt h, State.advance_x, State.advance_y]
  all_goals
    simp only [resolve, Operand.mode, operandAddress, memRead_of_bytesAt_cons h, pointerAt_eq, State.advance_x,
      State.advance_y, State.advance_mem]

/-- R71, R110: a load's value is the byte at its effective address, the immediate one too. -/
theorem operandValue_of_bytesAt {o : Operand} {s : State} {ea : Word}
    (h : BytesAt (s.advance 1) (s.advance 1).pc.toNat o.bytes) (hea : operandAddress o s = .ok ea) :
    operandValue o s = memRead (s.advance 1) ea := by
  by_cases ho : o.mode = .immediate
  · cases o <;> cases ho
    obtain rfl := Except.ok.inj hea
    exact (memRead_of_bytesAt_cons h).symm
  · exact operandValue_of_address ho hea

/-- R93: just past the opcode byte stand the operand's bytes. -/
theorem operand_bytesAt {i : Instr} {s : State} (h : BytesAt s s.pc.toNat (encode i)) :
    BytesAt (s.advance 1) (s.advance 1).pc.toNat i.operand.bytes := by
  obtain ⟨b, -, he, -⟩ := encode_eq_cons i
  rw [he, encode_tail] at h
  have htail := (bytesAt_cons_iff.1 h).2
  have hm : Config.memSize = 65535 := rfl
  have hfit := htail.1
  have hn : (s.advance 1).pc.toNat = s.pc.toNat + 1 := add16_ofNat_toNat (n := 1) (by omega)
  rw [hn]
  exact htail

/-- R93: two advances are one. -/
theorem State.advance_advance (s : State) (m n : Nat) : (s.advance m).advance n = s.advance (m + n) := by
  simp only [State.advance, State.setPc, add16_ofNat_ofNat]

/-! ## The lines of the spec's step -/

theorem specResolve_none (s : State) : specResolve .noneAddressing s = .ok none := rfl

theorem specResolve_ok {mode : Mode} {s : State} {ea : Word} (hmode : mode ≠ .noneAddressing)
    (h : resolve mode s = .ok ea) : specResolve mode s = .ok (some ea) := by
  simp only [specResolve, if_neg hmode, h]

theorem specResolve_error {mode : Mode} {s : State} {f : Fault} (hmode : mode ≠ .noneAddressing)
    (h : resolve mode s = .error f) : specResolve mode s = .error f := by
  simp only [specResolve, if_neg hmode, h]

/-- R82: line 5 completes where the resolver needs no byte or all of its bytes have cells. -/
theorem specResolve_total {mode : Mode} {s : State}
    (hfit : mode = .noneAddressing ∨ mode = .immediate ∨ s.pc.toNat + mode.operandBytes ≤ 65535) :
    ∃ ea, specResolve mode s = .ok ea := by
  by_cases hmode : mode = .noneAddressing
  · subst hmode
    exact ⟨none, specResolve_none s⟩
  · obtain ⟨ea, hea⟩ := resolve_total hmode (hfit.resolve_left hmode)
    exact ⟨some ea, specResolve_ok hmode hea⟩

section Lines

variable {extra : List Descriptor} {s : State} {b : Byte} {d : Descriptor}

/-- Line 1. -/
theorem specStep_of_fetch_fault {f : Fault} (hr : memRead s s.pc = .error f) : specStep extra s = raise f := by
  simp only [specStep, hr]

/-- Line 3. -/
theorem specStep_of_unrecognised (hr : memRead s s.pc = .ok b) (hl : lookup extra b = .unrecognised) :
    specStep extra s = raise (.unrecognizedOpcode b s.pc) := by
  simp only [specStep, hr, hl, Lookup.descriptor?]

/-- Line 4. -/
theorem specStep_of_brk (hr : memRead s s.pc = .ok b) (hl : lookup extra b = .implemented d)
    (hbrk : d.mnemonic = .brk) : specStep extra s = .next (s.advance 1).halt := by
  simp only [specStep, hr, hl, Lookup.descriptor?, if_pos hbrk]
  rfl

/-- Line 5, where it faults. -/
theorem specStep_of_resolve_fault {f : Fault} (hr : memRead s s.pc = .ok b)
    (hl : (lookup extra b).descriptor? = some d) (hbrk : d.mnemonic ≠ .brk)
    (hres : specResolve d.mode (s.advance 1) = .error f) : specStep extra s = raise f := by
  have hres' : specResolve d.mode (s.setPc (add16 s.pc 1)) = .error f := hres
  simp only [specStep, hr, hl, if_neg hbrk, hres']

/-- Line 6. -/
theorem specStep_of_unimplemented {ea : Option Word} (hr : memRead s s.pc = .ok b)
    (hl : lookup extra b = .unimplemented d) (hbrk : d.mnemonic ≠ .brk)
    (hres : specResolve d.mode (s.advance 1) = .ok ea) :
    specStep extra s = raise (.unimplementedInstruction b s.pc) := by
  have hres' : specResolve d.mode (s.setPc (add16 s.pc 1)) = .ok ea := hres
  simp only [specStep, hr, hl, Lookup.descriptor?, if_neg hbrk, hres', if_true]

/-- Line 7, where the handler faults. -/
theorem specStep_of_handler_fault {ea : Option Word} {f : Fault} (hr : memRead s s.pc = .ok b)
    (hl : lookup extra b = .implemented d) (hbrk : d.mnemonic ≠ .brk)
    (hres : specResolve d.mode (s.advance 1) = .ok ea) (hh : specHandler d.mnemonic ea (s.advance 1) = .error f) :
    specStep extra s = raise f := by
  have hres' : specResolve d.mode (s.setPc (add16 s.pc 1)) = .ok ea := hres
  have hh' : specHandler d.mnemonic ea (s.setPc (add16 s.pc 1)) = .error f := hh
  simp only [specStep, hr, hl, Lookup.descriptor?, if_neg hbrk, hres', reduceCtorEq, if_false, hh']

/-- Lines 7 and 8: the two advances of `PC` are one, by the length. -/
theorem specStep_of_handler {ea : Option Word} {t : State} (hr : memRead s s.pc = .ok b)
    (hl : lookup extra b = .implemented d) (hbrk : d.mnemonic ≠ .brk)
    (hres : specResolve d.mode (s.advance 1) = .ok ea)
    (hh : specHandler d.mnemonic ea (s.advance 1) = .ok (t.advance 1)) :
    specStep extra s = .next (t.advance d.length) := by
  have hres' : specResolve d.mode (s.setPc (add16 s.pc 1)) = .ok ea := hres
  have hh' : specHandler d.mnemonic ea (s.setPc (add16 s.pc 1)) = .ok (t.advance 1) := hh
  have hadv : (t.advance 1).advance (d.length - 1) = t.advance d.length := by
    rw [State.advance_advance, opTable_length (lookup_implemented hl).1, Nat.add_sub_cancel_left]
  rw [← hadv]
  simp only [specStep, hr, hl, Lookup.descriptor?, if_neg hbrk, hres', reduceCtorEq, if_false, hh', State.advance]

/-- Lines 5 to 8 of an LDA row. -/
theorem specStep_of_load {o : Operand} {ea : Word} (hr : memRead s s.pc = .ok b)
    (hl : lookup extra b = .implemented d) (hmn : d.mnemonic = .lda) (hlen : o.length = d.length)
    (hres : specResolve d.mode (s.advance 1) = .ok (some ea)) (hv : operandValue o s = memRead (s.advance 1) ea) :
    specStep extra s = load o s := by
  have hbrk : d.mnemonic ≠ .brk := by simp [hmn]
  rw [load, hv, hlen]
  cases hread : memRead (s.advance 1) ea with
  | error f => exact specStep_of_handler_fault hr hl hbrk hres (by simp only [hmn, specHandler, hread])
  | ok v =>
    have hh : specHandler d.mnemonic (some ea) (s.advance 1) = .ok (((s.advance 1).setA v).setZN v) := by
      simp only [hmn, specHandler, hread]
    exact specStep_of_handler hr hl hbrk hres hh

/-- Lines 5 to 8 of a STA row. -/
theorem specStep_of_store {o : Operand} {ea : Word} (hr : memRead s s.pc = .ok b)
    (hl : lookup extra b = .implemented d) (hmn : d.mnemonic = .sta) (hlen : o.length = d.length)
    (hres : specResolve d.mode (s.advance 1) = .ok (some ea)) (hea : operandAddress o s = .ok ea) :
    specStep extra s = store o s := by
  have hbrk : d.mnemonic ≠ .brk := by simp [hmn]
  have hh : specHandler d.mnemonic (some ea) (s.advance 1) = memWrite (s.advance 1) ea s.a := by
    rw [hmn]
    rfl
  rw [memWrite_eq] at hh
  by_cases htop : ea = 0xFFFF
  · rw [if_pos htop] at hh
    rw [store_at_top (htop ▸ hea)]
    exact specStep_of_handler_fault hr hl hbrk hres hh
  · rw [if_neg htop] at hh
    rw [store_at hea htop, hlen]
    exact specStep_of_handler hr hl hbrk hres hh

/-- Lines 5 to 8 of a row whose handler puts a value into `X`. -/
theorem specStep_of_intoX {v : Byte} (hr : memRead s s.pc = .ok b) (hl : lookup extra b = .implemented d)
    (hbrk : d.mnemonic ≠ .brk) (hlen : d.length = 1) (hmo : d.mode = .noneAddressing)
    (hh : specHandler d.mnemonic none (s.advance 1) = .ok (((s.advance 1).setX v).setZN v)) :
    specStep extra s = intoX v s := by
  have hres : specResolve d.mode (s.advance 1) = .ok none := by rw [hmo, specResolve_none]
  rw [intoX, ← hlen]
  exact specStep_of_handler hr hl hbrk hres hh

end Lines

/-! ## The machine's side of the lines -/

/-- R152: a mode without an operand needs no resolving. -/
theorem unimplementedFault_of_none {d : Descriptor} (hmode : d.mode = .noneAddressing) (b : Byte) (s : State) :
    unimplementedFault d b s = .unimplementedInstruction b s.pc := by
  simp only [unimplementedFault, hmode]

/-- R152, R166: the resolver's fault comes first. -/
theorem unimplementedFault_of_error {d : Descriptor} {s : State} {f : Fault} (hmode : d.mode ≠ .noneAddressing)
    (hres : resolve d.mode (s.advance 1) = .error f) (b : Byte) : unimplementedFault d b s = f := by
  cases hm : d.mode <;> rw [hm] at hmode hres
  case noneAddressing => exact absurd rfl hmode
  all_goals simp only [unimplementedFault, hm, hres]

/-- R152: once its address is resolved, the instruction faults. -/
theorem unimplementedFault_of_ok {d : Descriptor} {s : State} {ea : Word} (hmode : d.mode ≠ .noneAddressing)
    (hres : resolve d.mode (s.advance 1) = .ok ea) (b : Byte) :
    unimplementedFault d b s = .unimplementedInstruction b s.pc := by
  cases hm : d.mode <;> rw [hm] at hmode hres
  case noneAddressing => exact absurd rfl hmode
  all_goals simp only [unimplementedFault, hm, hres]

/-- Line 5 for a registered, unimplemented byte, where it faults. -/
theorem unimplementedFault_of_resolve_fault {d : Descriptor} {s : State} {f : Fault} (b : Byte)
    (hres : specResolve d.mode (s.advance 1) = .error f) : unimplementedFault d b s = f := by
  by_cases hmode : d.mode = .noneAddressing
  · rw [hmode, specResolve_none] at hres
    cases hres
  · cases hr : resolve d.mode (s.advance 1) with
    | error g =>
      rw [specResolve_error hmode hr] at hres
      rw [unimplementedFault_of_error hmode hr, Except.error.inj hres]
    | ok ea =>
      rw [specResolve_ok hmode hr] at hres
      cases hres

/-- Line 6 for a registered, unimplemented byte. -/
theorem unimplementedFault_of_resolved {d : Descriptor} {s : State} {ea : Option Word} (b : Byte)
    (hres : specResolve d.mode (s.advance 1) = .ok ea) :
    unimplementedFault d b s = .unimplementedInstruction b s.pc := by
  by_cases hmode : d.mode = .noneAddressing
  · exact unimplementedFault_of_none hmode b s
  · cases hr : resolve d.mode (s.advance 1) with
    | error f =>
      rw [specResolve_error hmode hr] at hres
      cases hres
    | ok ea => exact unimplementedFault_of_ok hmode hr b

/-- R14: once the opcode byte is read, `PC` moves past it without wrap. -/
theorem advance_one_pc_toNat {s : State} {b : Byte} (hr : memRead s s.pc = .ok b) :
    (s.advance 1).pc.toNat = s.pc.toNat + 1 :=
  add16_ofNat_toNat (n := 1) (toNat_lt_of_ne_top (memRead_ok hr).1)

/-- R92 line 5, R97: an implemented byte, an operand byte of which has no cell, faults in the spec's step too: when the
address is resolved, or, for LDA's immediate form, when its byte is read. -/
theorem specStep_of_operand_missing {extra : List Descriptor} {s : State} {b : Byte} {d : Descriptor}
    (hr : memRead s s.pc = .ok b) (hl : lookup extra b = .implemented d) (hmiss : 65535 < s.pc.toNat + d.length) :
    specStep extra s = raise (.memoryOutOfRange 0xFFFF) := by
  obtain ⟨hd, -⟩ := lookup_implemented hl
  have hlt := toNat_lt_of_ne_top (memRead_ok hr).1
  have hn := advance_one_pc_toNat hr
  rw [opTable_length hd] at hmiss
  have hmode : d.mode ≠ .noneAddressing := fun h => by
    rw [h, Mode.operandBytes] at hmiss
    omega
  have hbrk : d.mnemonic ≠ .brk := fun h => hmode (mode_of_brk_row hd h)
  by_cases himm : d.mode = .immediate
  · have htop : (s.advance 1).pc = 0xFFFF := by
      rw [himm, Mode.operandBytes] at hmiss
      exact (eq_of_word_missing (by omega)).resolve_left fun h => by
        rw [h] at hn
        simp at hn
        omega
    refine specStep_of_handler_fault hr hl hbrk (specResolve_ok hmode (by rw [himm]; rfl)) (ea := some _) ?_
    rw [mnemonic_of_immediate_row hd himm, htop]
    rfl
  · refine specStep_of_resolve_fault hr (by rw [hl]; rfl) hbrk (specResolve_error hmode ?_)
    exact resolve_missing hmode himm (by omega)

/-- R92 lines 4 to 8: an implemented byte whose instruction stands at `PC`: the spec's step is that instruction's
`exec`. -/
theorem specStep_of_bytesAt {extra : List Descriptor} {s : State} {b : Byte} {d : Descriptor} {i : Instr}
    (hr : memRead s s.pc = .ok b) (hl : lookup extra b = .implemented d) (hb : BytesAt s s.pc.toNat (encode i))
    (hlen : i.length = d.length) (hmn : i.mnemonic = d.mnemonic) (hmo : i.operand.mode = d.mode) :
    specStep extra s = exec i s := by
  have hops := operand_bytesAt hb
  have haddr (hm : i.mnemonic = .lda ∨ i.mnemonic = .sta) : ∃ ea, operandAddress i.operand s = .ok ea ∧
      specResolve d.mode (s.advance 1) = .ok (some ea) := by
    obtain ⟨ea, hea⟩ := (operandAddress_total i.operand s).resolve_left fun h => operand_of_memory hm h.1
    refine ⟨ea, hea, ?_⟩
    rw [← hmo]
    exact specResolve_ok (mode_of_memory hm) ((resolve_of_bytesAt hops).trans hea)
  rcases exec_shape i s with ⟨hm, he⟩ | ⟨hm, he⟩ | ⟨rfl, he⟩ | ⟨rfl, he⟩ | ⟨rfl, he⟩ <;> rw [he]
  · obtain ⟨ea, hea, hres⟩ := haddr (.inl hm)
    exact specStep_of_load hr hl (hmn.symm.trans hm) hlen hres (operandValue_of_bytesAt hops hea)
  · obtain ⟨ea, hea, hres⟩ := haddr (.inr hm)
    exact specStep_of_store hr hl (hmn.symm.trans hm) hlen hres hea
  · exact specStep_of_intoX hr hl (hmn ▸ nofun) hlen.symm hmo.symm (by rw [← hmn]; rfl)
  · exact specStep_of_intoX hr hl (hmn ▸ nofun) hlen.symm hmo.symm (by rw [← hmn]; rfl)
  · exact specStep_of_brk hr hl hmn.symm

/-- Settles O50: line by line, by what the fetch does with the byte at `PC`. -/
theorem stepRefinesTheSpecsStep : Obligations.StepRefinesTheSpecsStep := by
  intro extra s hx hrun
  rw [stepWith_of_running hrun, runStep]
  cases hr : memRead s s.pc with
  | error f =>
    have hfetch : fetchInstr extra s = .error f := by simp only [fetchInstr, hr]
    rw [hfetch, specStep_of_fetch_fault hr]
  | ok b =>
    rcases fetchInstr_cases hr extra with ⟨hl, hf⟩ | ⟨d, hl, hf⟩ |
      ⟨d, hl, ⟨hmiss, hf⟩ | ⟨hfit, i, hf, he, hlen, hmn, hmo⟩⟩ <;> rw [hf]
    · exact (specStep_of_unrecognised hr hl).symm
    · obtain ⟨⟨-, hkeys⟩, -, hnobrk⟩ := extraWf_iff.1 hx
      have hbrk := hnobrk d ((findRow_eq_some_iff hkeys).1 (lookup_eq_unimplemented_iff.1 hl).2).1
      cases hres : specResolve d.mode (s.advance 1) with
      | error f =>
        rw [unimplementedFault_of_resolve_fault b hres, specStep_of_resolve_fault hr (by rw [hl]; rfl) hbrk hres]
      | ok ea => rw [unimplementedFault_of_resolved b hres, specStep_of_unimplemented hr hl hbrk hres]
    · exact (specStep_of_operand_missing hr hl hmiss).symm
    · refine (specStep_of_bytesAt hr hl ?_ hlen hmn hmo).symm
      rw [he, BytesAt, Memory.bytesFrom_length]
      exact ⟨hfit, rfl⟩

/-- Settles O48: the unimplemented byte's row, and whether its operand bytes have cells. -/
theorem unimplementedOpcodesFault : Obligations.UnimplementedOpcodesFault := by
  intro extra d s hx hd hrun hr
  obtain ⟨⟨hlen, -⟩, -, -⟩ := extraWf_iff.1 hx
  have hn := advance_one_pc_toNat hr
  have hdl := hlen d hd
  have hstep : stepWith extra s = .fault (unimplementedFault d d.code s) := by
    have hl := lookup_extra hx hd
    rcases fetchInstr_cases hr extra with ⟨hu, -⟩ | ⟨e, hu, hf⟩ | ⟨e, hu, -⟩ <;> rw [hl] at hu <;> cases hu
    rw [stepWith_of_running hrun, runStep, hf]
    rfl
  refine ⟨fun hfit => ?_, fun hmode himm hmiss => ?_⟩
  · obtain ⟨ea, hea⟩ := specResolve_total (s := s.advance 1) (hfit.imp_right (.imp_right fun h => by omega))
    rw [hstep, unimplementedFault_of_resolved _ hea]
  · have hres := resolve_missing (s := s.advance 1) hmode himm (by omega)
    rw [hstep, unimplementedFault_of_resolve_fault _ (specResolve_error hmode hres)]

end Sys2Proof.Machine

/-! SUPPORT. R98, R195: every step of a run that goes on moves `PC` up, so every run ends. -/

namespace Sys2Proof.Safety

open Sys2Proof Sys2Proof.Machine

/-- R166: a step of a run is not refused. -/
theorem step_not_refused {s : State} (hrun : s.runState = .running) (r : Refusal) : step s ≠ .refused r := by
  intro h
  rcases (runningStepOutcomes s hrun).2 with ⟨t, ht⟩ | hf | ⟨b, -, hf⟩
  · rw [h] at ht
    cases ht
  · rw [h] at hf
    cases hf
  · rw [h] at hf
    cases hf

/-- R95: after a step of a run that completes, the run goes on or has halted. -/
theorem step_running_or_halted {s t : State} (hrun : s.runState = .running) (h : step s = .next t) :
    t.runState = .running ∨ t.runState = .halted := by
  obtain ⟨i, -, he⟩ := step_next_of_running hrun h
  rcases exec_runState he with ⟨-, ht⟩ | ⟨-, ht⟩
  · exact .inr ht
  · exact .inl (ht.trans hrun)

/-- R98: a run ends within as many steps as there are addresses from `PC` up. -/
theorem runLoop_ends (n : Nat) (s : State) (hrun : s.runState = .running) (hn : 0x10000 ≤ s.pc.toNat + n) :
    (∃ t, runLoop n s = .halted t ∧ t.runState = .halted) ∨ ∃ f, runLoop n s = .faulted f := by
  induction n generalizing s with
  | zero => omega
  | succ n ih =>
    cases hs : step s with
    | fault f => exact .inr ⟨f, by simp only [runLoop, hs]⟩
    | refused r => exact absurd hs (step_not_refused hrun r)
    | next t =>
      obtain ⟨i, -, -, hpc, -⟩ := pcAdvancesByTheLength s t hrun hs
      have hlen := one_le_length i
      rcases step_running_or_halted hrun hs with ht | ht
      · have hloop : runLoop (n + 1) s = runLoop n t := by simp only [runLoop, hs, ht, if_true]
        rw [hloop]
        exact ih t ht (by omega)
      · exact .inl ⟨t, by simp only [runLoop, hs, ht, reduceCtorEq, if_false], ht⟩

/-- Settles O51: from any `PC` there are at most 65,536 addresses up to the top. -/
theorem everyRunEnds : Obligations.EveryRunEnds :=
  fun s hrun => runLoop_ends 65536 s hrun (by omega)

end Sys2Proof.Safety

/-! SUPPORT. R82, R97: what a fetch depends on. -/

namespace Sys2Proof.Machine

open Sys2Proof Sys2Proof.Safety

theorem fetchBytes_congr {s t : State} (hm : s.mem = t.mem) (addr : Word) (n : Nat) :
    fetchBytes s addr n = fetchBytes t addr n := by
  induction n generalizing addr with
  | zero => rfl
  | succ n ih => simp only [fetchBytes, memRead_congr hm, ih]

theorem unimplementedFault_congr {s t : State} (hpc : s.pc = t.pc) (hx : s.x = t.x) (hy : s.y = t.y)
    (hm : s.mem = t.mem) (d : Descriptor) (b : Byte) : unimplementedFault d b s = unimplementedFault d b t := by
  have hadv : (s.advance 1).pc = (t.advance 1).pc := by rw [State.advance_pc, State.advance_pc, hpc]
  simp only [unimplementedFault, resolve_congr (s := t.advance 1) hadv hx hy (sameReads_of_mem hm), hpc]

/-- A fetch depends on `PC`, `X`, `Y` and memory alone. -/
theorem fetchInstr_congr {s t : State} (hpc : s.pc = t.pc) (hx : s.x = t.x) (hy : s.y = t.y) (hm : s.mem = t.mem)
    (extra : List Descriptor) : fetchInstr extra s = fetchInstr extra t := by
  simp only [fetchInstr, hpc, memRead_congr hm, fetchBytes_congr hm, unimplementedFault_congr hpc hx hy hm]

end Sys2Proof.Machine

/-! SUPPORT. R27: a relation on states that the register operations keep, and that fixes what the core reads, is kept by
every step of a run. -/

namespace Sys2Proof.Safety

open Sys2Proof Sys2Proof.Machine

/-- Two outcomes of one kind: next states that are related, or one fault, or one refusal. -/
inductive Alike (R : State → State → Prop) : Result → Result → Prop
  | next {s t : State} : R s t → Alike R (.next s) (.next t)
  | fault (f : Fault) : Alike R (.fault f) (.fault f)
  | refused (r : Refusal) : Alike R (.refused r) (.refused r)

/-- A relation that fixes the registers but `P`, memory and RunState, and is kept by each write of an instruction. -/
structure KeptByWrites (R : State → State → Prop) : Prop where
  a {s t : State} : R s t → s.a = t.a
  x {s t : State} : R s t → s.x = t.x
  y {s t : State} : R s t → s.y = t.y
  pc {s t : State} : R s t → s.pc = t.pc
  mem {s t : State} : R s t → s.mem = t.mem
  runState {s t : State} : R s t → s.runState = t.runState
  setA {s t : State} (v : Byte) : R s t → R (s.setA v) (t.setA v)
  setX {s t : State} (v : Byte) : R s t → R (s.setX v) (t.setX v)
  setZN {s t : State} (v : Byte) : R s t → R (s.setZN v) (t.setZN v)
  setPc {s t : State} (v : Word) : R s t → R (s.setPc v) (t.setPc v)
  setMem {s t : State} (m : Memory) : R s t → R (s.setMem m) (t.setMem m)
  setRunState {s t : State} (r : RunState) : R s t → R (s.setRunState r) (t.setRunState r)

namespace KeptByWrites

variable {R : State → State → Prop} (hR : KeptByWrites R) {s t : State}

include hR

theorem advance (n : Nat) (h : R s t) : R (s.advance n) (t.advance n) := by
  rw [State.advance, State.advance, hR.pc h]
  exact hR.setPc _ h

theorem alike_load (o : Operand) (h : R s t) : Alike R (load o s) (load o t) := by
  rw [load, load, operandValue_congr (hR.x h) (hR.y h) (hR.mem h)]
  cases operandValue o t with
  | error f => exact .fault f
  | ok v => exact .next (hR.advance _ (hR.setZN v (hR.setA v h)))

theorem alike_store (o : Operand) (h : R s t) : Alike R (store o s) (store o t) := by
  rw [store, store, operandAddress_congr (hR.pc h) (hR.x h) (hR.y h) (hR.mem h), hR.a h]
  cases operandAddress o t with
  | error f => exact .fault f
  | ok ea =>
    simp only [memWrite_eq, hR.mem h]
    by_cases htop : ea = 0xFFFF
    · simp only [if_pos htop]
      exact .fault _
    · simp only [if_neg htop]
      exact .next (hR.advance _ (hR.setMem _ h))

theorem alike_intoX {v w : Byte} (hv : v = w) (h : R s t) : Alike R (intoX v s) (intoX w t) := by
  subst hv
  exact .next (hR.advance _ (hR.setZN v (hR.setX v h)))

theorem alike_exec (i : Instr) (h : R s t) : Alike R (exec i s) (exec i t) := by
  rcases exec_shape i s with ⟨hm, -⟩ | ⟨hm, -⟩ | ⟨rfl, -⟩ | ⟨rfl, -⟩ | ⟨rfl, -⟩
  · rw [exec_of_lda hm, exec_of_lda hm]
    exact hR.alike_load _ h
  · rw [exec_of_sta hm, exec_of_sta hm]
    exact hR.alike_store _ h
  · exact hR.alike_intoX (hR.a h) h
  · exact hR.alike_intoX (congrArg (add8 · 1) (hR.x h)) h
  · exact .next (hR.setRunState _ (hR.advance _ h))

/-- R92: the two steps fetch one instruction, or their fetches end in one fault. -/
theorem alike_step (h : R s t) (hrun : s.runState = .running) : Alike R (step s) (step t) := by
  rw [step_of_running hrun, step_of_running ((hR.runState h).symm.trans hrun), runStep, runStep,
    fetchInstr_congr (hR.pc h) (hR.x h) (hR.y h) (hR.mem h)]
  cases fetchInstr extraTable t with
  | error f => exact .fault f
  | ok i => exact hR.alike_exec i h

end KeptByWrites

/-! ## States that differ in `P` alone -/

/-- R27: the states differ at most in `P`. -/
def SameButP (s t : State) : Prop := s.setP Status.zero = t.setP Status.zero

theorem sameButP_setP (s : State) (q : Status) : SameButP s (s.setP q) := rfl

theorem keptByWrites_sameButP : KeptByWrites SameButP where
  a := congrArg State.a
  x := congrArg State.x
  y := congrArg State.y
  pc := congrArg State.pc
  mem := congrArg State.mem
  runState := congrArg State.runState
  setA v h := congrArg (State.setA · v) h
  setX v h := congrArg (State.setX · v) h
  setZN _ h := h
  setPc v h := congrArg (State.setPc · v) h
  setMem m h := congrArg (State.setMem · m) h
  setRunState r h := congrArg (State.setRunState · r) h

/-- R18, R181 to R186: no host call reads `P`. -/
theorem alike_hostCall_setP (c : HostCall) (s : State) (q : Status) :
    Alike SameButP (hostCall c s) (hostCall c (s.setP q)) := by
  cases c with
  | reset => exact .next rfl
  | run => exact .next rfl
  | loadAndRun bytes =>
    simp only [hostCall, loadAndRunCall_eq, answer]
    by_cases hfit : imageFits Config.programOrigin bytes.length = true
    · simp only [if_pos hfit]
      exact .next rfl
    · simp only [if_neg hfit]
      exact .refused _
  | memWrite addr v =>
    by_cases hx : cellExists addr.toNat = true
    · simp only [hostCall, memWriteCall, memWrite, if_pos hx, answer]
      exact .next rfl
    · simp only [hostCall, memWriteCall, if_neg hx]
      exact .refused _
  | memWrite16 addr v =>
    by_cases hx : cellExists (addr.toNat + 1) = true
    · simp only [hostCall, memWrite16Call, if_pos hx, memWrite16_eq _ _ _ hx, answer]
      exact .next rfl
    · simp only [hostCall, memWrite16Call, if_neg hx]
      exact .refused _
  | memRead addr =>
    by_cases hx : cellExists addr.toNat = true
    · simp only [hostCall, memReadCall, memRead, if_pos hx]
      exact .next rfl
    · simp only [hostCall, memReadCall, if_neg hx]
      exact .refused _

theorem alike_hostTurn_setP (s : State) (q : Status) : Alike SameButP (hostTurn s) (hostTurn (s.setP q)) := by
  rw [hostTurn.eq_def, hostTurn.eq_def (s.setP q), State.setP_calls]
  cases s.calls with
  | nil => exact .next rfl
  | cons c rest => exact alike_hostCall_setP c (s.setCalls rest) q

/-- R27: no step reads `P`. -/
theorem alike_step_setP (s : State) (q : Status) : Alike SameButP (step s) (step (s.setP q)) := by
  cases hs : s.runState with
  | running => exact keptByWrites_sameButP.alike_step (sameButP_setP s q) hs
  | ready => simpa only [step, stepWith, State.setP_runState, hs] using alike_hostTurn_setP s q
  | halted => simpa only [step, stepWith, State.setP_runState, hs] using alike_hostTurn_setP s q
  | faulted =>
    simp only [step, stepWith, State.setP_runState, hs]
    exact .refused _

/-- Settles O17: the two steps are alike. -/
theorem flagsNeverInfluenceExecution : Obligations.FlagsNeverInfluenceExecution := by
  intro s q
  have h := alike_step_setP s q
  refine ⟨fun t ht => ?_, fun f hf => ?_, fun r hr => ?_⟩
  · rw [ht] at h
    generalize step (s.setP q) = r at h ⊢
    cases h with | next htu => exact ⟨_, rfl, htu.symm⟩
  · rw [hf] at h
    generalize step (s.setP q) = r at h ⊢
    cases h
    rfl
  · rw [hr] at h
    generalize step (s.setP q) = r' at h ⊢
    cases h
    rfl

/-! ## States with one observation -/

/-- R196: the states stand at one point of a run, as far as a claim may see. -/
def SameObserved (s t : State) : Prop := observe s = observe t ∧ s.runState = t.runState

theorem keptByWrites_sameObserved : KeptByWrites SameObserved where
  a h := congrArg Observation.a h.1
  x h := congrArg Observation.x h.1
  y h := congrArg Observation.y h.1
  pc h := congrArg Observation.pc h.1
  mem h := congrArg Observation.mem h.1
  runState h := h.2
  setA v h := ⟨congrArg ({ · with a := v }) h.1, h.2⟩
  setX v h := ⟨congrArg ({ · with x := v }) h.1, h.2⟩
  setZN v h := ⟨congrArg ({ · with zero := v == 0x00, negative := v.getLsbD 7 }) h.1, h.2⟩
  setPc v h := ⟨congrArg ({ · with pc := v }) h.1, h.2⟩
  setMem m h := ⟨congrArg ({ · with mem := m }) h.1, h.2⟩
  setRunState _ h := ⟨h.1, rfl⟩

/-- R195: two runs from one observation have one ending, if any. -/
theorem ending_runLoop_congr (n : Nat) {s t : State} (h : SameObserved s t) (hrun : s.runState = .running) :
    (runLoop n s).ending = (runLoop n t).ending := by
  induction n generalizing s t with
  | zero => rfl
  | succ n ih =>
    have hstep := keptByWrites_sameObserved.alike_step h hrun
    rw [runLoop, runLoop]
    generalize step s = r, step t = q at hstep
    cases hstep with
    | fault f => rfl
    | refused r => rfl
    | @next s' t' h' =>
      simp only [← h'.2]
      split
      · exact ih h' ‹_›
      · exact congrArg (fun o => some (Ending.halted o)) h'.1

/-- Settles O58: the endings are equal, and a postcondition speaks of the ending alone. -/
theorem observationDecidesTheEnding : Obligations.ObservationDecidesTheEnding := by
  intro s t hs ht h
  have hend (n : Nat) : (runLoop n s).ending = (runLoop n t).ending :=
    ending_runLoop_congr n ⟨h, hs.trans ht.symm⟩ hs
  exact ⟨hend, fun post => by rw [RunMeets, RunMeets, hend]⟩

end Sys2Proof.Safety

/-! SUPPORT. R181 to R189: the step in the host's turn, and what each call does. -/

namespace Sys2Proof.Safety

open Sys2Proof Sys2Proof.Machine

/-- R189: in Ready and in Halted the step is the host's turn. -/
theorem step_of_hostMayAct {s : State} (h : HostMayAct s) : step s = hostTurn s := by
  rcases h with h | h <;> rw [step, stepWith, h]

/-- R189: the host makes its next call. -/
theorem step_of_call {s : State} {c : HostCall} {rest : List HostCall} (h : HostMayAct s) (hc : s.calls = c :: rest) :
    step s = hostCall c (s.setCalls rest) := by
  rw [step_of_hostMayAct h, hostTurn, hc]

/-- Settles O53: the host's turn with no call. -/
theorem haltedCoreWaits : Obligations.HaltedCoreWaits := by
  intro s h hc
  rw [step_of_hostMayAct h, hostTurn, hc]

/-- Settles O54: `run()` writes RunState alone. -/
theorem runCallRule : Obligations.RunCallRule := by
  intro s rest h hc
  exact ⟨runCall (s.setCalls rest), step_of_call h hc, rfl, ⟨rfl, rfl, rfl, rfl, rfl⟩, sameReads_of_mem rfl, rfl, rfl⟩

/-- Settles O8: the state that `reset()` leaves. -/
theorem resetCallRule : Obligations.ResetCallRule := by
  intro s rest h hc
  rw [step_of_call h hc, hostCall, resetCall_eq]
  exact ⟨_, rfl, rfl, rfl, rfl, rfl, rfl, sameReads_of_mem rfl, rfl, rfl, rfl⟩

/-- Settles O55: the byte write and the word write, inside the contract and outside it. -/
theorem hostWriteRules : Obligations.HostWriteRules := by
  constructor
  · intro s addr v rest h hc
    rw [step_of_call h hc, hostCall, memWriteCall]
    refine ⟨fun htop => if_neg fun hx => (cellExists_word addr).1 hx htop, fun hne => ?_⟩
    rw [if_pos ((cellExists_word addr).2 hne), memWrite_eq, if_neg hne]
    exact ⟨_, rfl, memRead_set_self (s.setCalls rest) v hne, fun b hb => memRead_set_other (s.setCalls rest) v hb,
      ⟨rfl, rfl, rfl, rfl, rfl⟩, rfl, rfl, rfl⟩
  · intro s addr v rest h hc
    rw [step_of_call h hc, hostCall, memWrite16Call]
    refine ⟨fun hge => if_neg fun hx => by rw [cellExists_iff] at hx; omega, fun hlt => ?_⟩
    have hx : cellExists (addr.toNat + 1) = true := (cellExists_iff _).2 (by omega)
    obtain ⟨hlo, hhi, hother⟩ := memRead_set_word (s.setCalls rest) (lowByte v) (highByte v) hlt
    rw [if_pos hx, memWrite16_eq _ _ _ hx]
    exact ⟨_, rfl, hlo, hhi, hother, ⟨rfl, rfl, rfl, rfl, rfl⟩, rfl, rfl, rfl⟩

/-- Settles O56: the read, inside the contract and outside it. -/
theorem hostReadRule : Obligations.HostReadRule := by
  intro s addr rest h hc
  rw [step_of_call h hc, hostCall, memReadCall]
  refine ⟨fun htop => if_neg fun hx => (cellExists_word addr).1 hx htop, fun hne => ?_⟩
  rw [if_pos ((cellExists_word addr).2 hne), memRead_cell hne]
  exact ⟨_, rfl, rfl, sameReads_of_mem rfl, ⟨rfl, rfl, rfl, rfl, rfl⟩, rfl, rfl⟩

/-! ## load_and_run -/

/-- R45: an image byte at its address. -/
theorem memRead_loadProgram_inside (s : State) (bytes : List Byte) (hfit : bytes.length ≤ 32767) {k : Nat}
    (hk : k < bytes.length) :
    memRead (loadProgram s Config.programOrigin bytes) (BitVec.ofNat 16 (0x8000 + k)) = .ok bytes[k] := by
  have hn : (BitVec.ofNat 16 (0x8000 + k)).toNat = 0x8000 + k := by
    rw [BitVec.toNat_ofNat]
    omega
  rw [memRead_cell (ne_top_of_toNat_lt (by omega)), cell, hn]
  exact congrArg Except.ok (Memory.get_copy_inside s.mem 0x8000 k bytes hk)

/-- R45: every address outside the image reads as before. -/
theorem memRead_loadProgram_outside (s : State) (bytes : List Byte) {addr : Word}
    (h : addr.toNat < 0x8000 ∨ 0x8000 + bytes.length ≤ addr.toNat) :
    memRead (loadProgram s Config.programOrigin bytes) addr = memRead s addr := by
  have hget : (loadProgram s Config.programOrigin bytes).mem.get addr.toNat = s.mem.get addr.toNat :=
    h.elim (Memory.get_copy_below s.mem 0x8000 _ bytes) (Memory.get_copy_above s.mem 0x8000 _ bytes)
  rw [memRead_eq, memRead_eq, hget]

/-- R45: what `imageFits` asks of an image at the program's origin. -/
theorem imageFits_origin_iff (n : Nat) : imageFits Config.programOrigin n = true ↔ n ≤ 32767 := by
  have ho : Config.programOrigin.toNat = 32768 := rfl
  have hm : Config.memSize = 65535 := rfl
  rw [imageFits, decide_eq_true_iff]
  omega

/-- Settles O57: the image is copied, then the vector is written over it (R193). -/
theorem loadAndRunRule : Obligations.LoadAndRunRule := by
  intro s bytes rest h hc
  rw [step_of_call h hc, hostCall]
  refine ⟨fun hlong => if_neg fun hfit => ?_, fun hfit => ?_⟩
  · have := (imageFits_origin_iff _).1 hfit
    omega
  · rw [if_pos ((imageFits_origin_iff _).2 hfit), loadAndRunCall_eq]
    obtain ⟨hlo, hhi, hother⟩ := memRead_set_word (loadProgram (s.setCalls rest) Config.programOrigin bytes)
      (addr := 0xFFFC) 0x00 0x80 (by decide)
    refine ⟨_, rfl, rfl, rfl, rfl, rfl, rfl, rfl, hlo, hhi, fun k hk hk1 hk2 => ?_, fun addr h1 h2 hout => ?_, rfl, rfl⟩
    · have hn : (BitVec.ofNat 16 (0x8000 + k)).toNat = 0x8000 + k := by
        rw [BitVec.toNat_ofNat]
        omega
      have hne (v : Word) (hv : v.toNat ≠ 0x8000 + k) : BitVec.ofNat 16 (0x8000 + k) ≠ v := fun e => hv (e ▸ hn)
      exact (hother _ (hne 0xFFFC (by simp; omega)) (hne 0xFFFD (by simp; omega))).trans
        (memRead_loadProgram_inside _ bytes hfit hk)
    · exact (hother addr h1 h2).trans (memRead_loadProgram_outside _ bytes hout)

end Sys2Proof.Safety

/-! SUPPORT. What every step keeps, of the core and of the host. -/

namespace Sys2Proof.Safety

open Sys2Proof Sys2Proof.Machine

/-- R13: no host call writes `Y`. -/
theorem hostCall_y {c : HostCall} {s t : State} (h : hostCall c s = .next t) : t.y = s.y := by
  rcases hostCall_next h with ⟨-, rfl⟩ | ⟨-, rfl⟩ | ⟨_, -, -, rfl⟩ | ⟨_, _, -, -, rfl⟩ | ⟨_, _, -, -, rfl⟩ |
    ⟨_, -, -, rfl⟩ <;> rfl

/-- R181, R182: a call that resets zeroes `P`, and every other call keeps it. -/
theorem hostCall_p {c : HostCall} {s t : State} (h : hostCall c s = .next t) :
    ((c = .reset ∨ ∃ bytes, c = .loadAndRun bytes) ∧ t.p = Status.zero) ∨
    (¬(c = .reset ∨ ∃ bytes, c = .loadAndRun bytes) ∧ t.p = s.p) := by
  rcases hostCall_next h with ⟨hc, rfl⟩ | ⟨rfl, rfl⟩ | ⟨bytes, hc, -, rfl⟩ | ⟨_, _, rfl, -, rfl⟩ | ⟨_, _, rfl, -, rfl⟩ |
    ⟨_, rfl, -, rfl⟩
  · exact .inl ⟨.inl hc, rfl⟩
  · exact .inr ⟨by simp, rfl⟩
  · exact .inl ⟨.inr ⟨bytes, hc⟩, rfl⟩
  all_goals exact .inr ⟨by simp, rfl⟩

/-- R99, R183: a call that runs sets RunState, and every other call keeps it. -/
theorem hostCall_runState {c : HostCall} {s t : State} (h : hostCall c s = .next t) :
    ((c = .run ∨ ∃ bytes, c = .loadAndRun bytes) ∧ t.runState = .running) ∨
    (¬(c = .run ∨ ∃ bytes, c = .loadAndRun bytes) ∧ t.runState = s.runState) := by
  rcases hostCall_next h with ⟨rfl, rfl⟩ | ⟨hc, rfl⟩ | ⟨bytes, hc, -, rfl⟩ | ⟨_, _, rfl, -, rfl⟩ | ⟨_, _, rfl, -, rfl⟩ |
    ⟨_, rfl, -, rfl⟩
  · exact .inr ⟨by simp, rfl⟩
  · exact .inl ⟨.inl hc, rfl⟩
  · exact .inl ⟨.inr ⟨bytes, hc⟩, rfl⟩
  all_goals exact .inr ⟨by simp, rfl⟩

/-- Every host call that completes keeps memory in canonical form. -/
theorem hostCall_mem_wf {c : HostCall} {s t : State} (hwf : s.mem.wf) (h : hostCall c s = .next t) : t.mem.wf := by
  rcases hostCall_next h with ⟨-, rfl⟩ | ⟨-, rfl⟩ | ⟨bytes, -, hfit, rfl⟩ | ⟨addr, v, -, hne, rfl⟩ |
    ⟨addr, v, -, hx, rfl⟩ | ⟨addr, -, -, rfl⟩
  · exact hwf
  · exact hwf
  · have himage : (s.mem.copy 0x8000 bytes).wf :=
      Memory.wf_copy hwf 0x8000 bytes (by change _ ≤ 65535; omega)
    exact Memory.wf_set (Memory.wf_set himage 0x00 rfl) 0x80 rfl
  · exact Memory.wf_set hwf v ((cellExists_word addr).2 hne)
  · have hlow : cellExists addr.toNat = true := by
      rw [cellExists_iff] at hx ⊢
      omega
    exact Memory.wf_set (Memory.wf_set hwf (lowByte v) hlow) (highByte v) hx
  · exact hwf

/-- Every instruction that completes keeps memory in canonical form. -/
theorem exec_mem_wf {i : Instr} {s t : State} (hwf : s.mem.wf) (h : exec i s = .next t) : t.mem.wf := by
  rcases exec_mem h with ⟨-, ea, -, hne, hmem⟩ | hmem <;> rw [hmem]
  · exact Memory.wf_set hwf s.a ((cellExists_word ea).2 hne)
  · exact hwf

/-- Settles O13: by the instruction or the host call that the step is. -/
theorem stepKeepsMemoryCanonical : Obligations.StepKeepsMemoryCanonical := by
  intro s t hwf h
  rcases step_next h with ⟨-, i, -, he⟩ | ⟨-, ⟨-, rfl⟩ | ⟨c, rest, -, he⟩⟩
  · exact exec_mem_wf hwf he
  · exact hwf
  · exact hostCall_mem_wf (s := s.setCalls rest) hwf he

/-- Settles O19: by the instruction or the host call that the step is. -/
theorem nothingWritesY : Obligations.NothingWritesY := by
  intro s t h
  rcases step_next h with ⟨-, i, -, he⟩ | ⟨-, ⟨-, rfl⟩ | ⟨c, rest, -, he⟩⟩
  · exact exec_y he
  · rfl
  · exact hostCall_y (s := s.setCalls rest) he

/-- R181, R182: the next call resets exactly when it is one of the two that do. -/
theorem resetsNext_iff {s : State} {c : HostCall} {rest : List HostCall} (hc : s.calls = c :: rest) :
    ResetsNext s ↔ c = .reset ∨ ∃ bytes, c = .loadAndRun bytes := by
  simp [ResetsNext, hc, exists_or]

/-- R22: a step of the host's turn zeroes `P` if its next call resets, and keeps it if not. -/
theorem step_p_of_hostMayAct {s t : State} (hhost : HostMayAct s) (h : step s = .next t) :
    (ResetsNext s ∧ t.p = Status.zero) ∨ (¬ResetsNext s ∧ t.p = s.p) := by
  rcases step_next h with ⟨hrun, -⟩ | ⟨-, ⟨hc, rfl⟩ | ⟨c, rest, hc, he⟩⟩
  · exact absurd hrun (not_running_of_hostMayAct hhost)
  · exact .inr ⟨by simp [ResetsNext, hc], rfl⟩
  · rw [resetsNext_iff hc]
    exact hostCall_p (s := s.setCalls rest) he

/-- Settles O16: by the instruction or the host's turn that the step is. -/
theorem onlyResetWritesTheOtherFlags : Obligations.OnlyResetWritesTheOtherFlags := by
  intro s t h
  rcases step_next h with ⟨hrun, i, -, he⟩ | ⟨hhost, -⟩
  · exact ⟨fun _ => exec_keeps_other_flags he, fun hnot => absurd hrun hnot⟩
  · refine ⟨fun hrun => absurd hrun (not_running_of_hostMayAct hhost), fun _ => ?_⟩
    rcases step_p_of_hostMayAct hhost h with ⟨hres, hp⟩ | ⟨hres, hp⟩
    · exact ⟨fun _ => hp, fun hnot => absurd hres hnot⟩
    · exact ⟨fun hr => absurd hr hres, fun _ => hp⟩

/-- Settles O18: a step recomputes the two flags from one byte, zeroes `P`, or keeps it. -/
theorem zeroAndNegativeNeverBoth : Obligations.ZeroAndNegativeNeverBoth := by
  refine ⟨by decide, fun s t hs h => ?_⟩
  have hkept (hp : t.p = s.p) : ¬(t.flag .z = true ∧ t.flag .n = true) := by
    rwa [State.flag, State.flag, hp]
  rcases step_next h with ⟨-, i, -, he⟩ | ⟨hhost, -⟩
  · rcases exec_p he with ⟨v, hv⟩ | hp
    · exact hv.not_zero_and_negative
    · exact hkept hp
  · rcases step_p_of_hostMayAct hhost h with ⟨-, hp⟩ | ⟨-, hp⟩
    · simp [State.flag, hp]
    · exact hkept hp

/-- R54: the one instruction whose opcode byte is 0x00 is BRK. -/
theorem memRead_zero_iff_brk {i : Instr} {s : State} (h : BytesAt s s.pc.toNat (encode i)) :
    memRead s s.pc = .ok 0x00 ↔ i = .brk := by
  obtain ⟨b, -, he, -⟩ := encode_eq_cons i
  have hb : memRead s s.pc = .ok b := memRead_of_bytesAt_cons (he ▸ h)
  rw [hb, Except.ok.injEq]
  constructor
  · rintro rfl
    cases i <;> cases he
    rfl
  · rintro rfl
    exact (List.cons.inj he).1.symm

/-- R95, R150: a completed step of a run halts exactly at BRK. -/
theorem step_halted_iff {s t : State} (hrun : s.runState = .running) (h : step s = .next t) :
    t.runState = .halted ↔ memRead s s.pc = .ok 0x00 := by
  obtain ⟨i, hb, he⟩ := step_next_of_running hrun h
  rw [memRead_zero_iff_brk hb]
  rcases exec_runState he with ⟨hi, ht⟩ | ⟨hi, ht⟩
  · simp [hi, ht]
  · simp [hi, ht, hrun]

/-- R99, R183: a step of the host's turn starts a run if its next call is one that runs, and keeps RunState if not. -/
theorem step_runState_of_hostMayAct {s t : State} (hhost : HostMayAct s) (h : step s = .next t) :
    ((∃ rest, s.calls = .run :: rest ∨ ∃ bytes, s.calls = .loadAndRun bytes :: rest) ∧ t.runState = .running) ∨
    (¬(∃ rest, s.calls = .run :: rest ∨ ∃ bytes, s.calls = .loadAndRun bytes :: rest) ∧ t.runState = s.runState) := by
  rcases step_next h with ⟨hrun, -⟩ | ⟨-, ⟨hc, rfl⟩ | ⟨c, rest, hc, he⟩⟩
  · exact absurd hrun (not_running_of_hostMayAct hhost)
  · exact .inr ⟨by simp [hc], rfl⟩
  · simpa [hc, exists_or] using hostCall_runState (s := s.setCalls rest) he

/-- Settles O52: by the control state in which the step begins. -/
theorem runStateTransitions : Obligations.RunStateTransitions := by
  refine ⟨fun s hs => by rw [step, stepWith, hs], fun s t h => ?_⟩
  rcases step_next h with ⟨hrun, -⟩ | ⟨hhost, -⟩
  · have hend := step_running_or_halted hrun h
    exact ⟨by rcases hend with ht | ht <;> simp [ht], fun _ => ⟨step_halted_iff hrun h, hend⟩,
      fun hhost => absurd hrun (not_running_of_hostMayAct hhost)⟩
  · have hnot := not_running_of_hostMayAct hhost
    rcases step_runState_of_hostMayAct hhost h with ⟨hcall, ht⟩ | ⟨hcall, ht⟩
    · exact ⟨by simp [ht], fun hrun => absurd hrun hnot, fun _ => ⟨by simp only [ht, hcall], by simp [ht]⟩⟩
    · refine ⟨?_, fun hrun => absurd hrun hnot, fun _ => ⟨by simp only [ht, hnot, hcall], fun _ => ht⟩⟩
      rcases hhost with hs | hs <;> simp [ht, hs]

end Sys2Proof.Safety
